-- ==== Sys2Proof/Word.lean ====
section
/-! DEFINITION. The word types of the block: the byte of the framebuffer, the 16-bit halfword of
operands and registers, the 80-bit command word, the register number. -/

namespace Sys2Proof

/-- One framebuffer byte: 8 one-bit lanes (10_state.md R26, 40_span_blitters.md R90). -/
abbrev Byte := BitVec 8

/-- A 16-bit operand field or register (00_scope.md R7, `OPW`). -/
abbrev Half := BitVec 16

/-- A command word (00_scope.md R7, `CMDW`; 30_encoding.md R60). -/
abbrev CmdWord := BitVec 80

/-- A register number, 0x000 to 0x1FF (10_state.md R28). -/
abbrev RegNum := BitVec 9

end Sys2Proof
end

