-- ==== Sys2Proof/Config.lean ====
section
/-! DEFINITION. What is fixed for the machine: the parameters of 00_scope.md R6 and R7, and the one
free value the spec leaves open. -/

namespace Sys2Proof.Config

/-- `W`: screen columns (00_scope.md R6). -/
def screenW : Nat := 72

/-- `H`: screen rows (00_scope.md R6). -/
def screenH : Nat := 40

/-- `FB_BYTES`: framebuffer size in bytes (00_scope.md R6, 10_state.md R26). -/
def fbBytes : Nat := 360

/-- `UPPER_EMPTY` (00_scope.md R7): the reset value of every `UPPER[x]`. -/
def upperEmpty : Int := 40

/-- `LOWER_EMPTY` (00_scope.md R7): the reset value of every `LOWER[x]`. -/
def lowerEmpty : Int := -1

/-- FREE VALUE (70_reset_and_hazards.md R181, 93_implementation_defined.md U7): which lanes of the
`k`-th interrupted byte operation took effect before a reset abandoned its command. It has no body, so
nothing can be proved of it; log 7. -/
opaque abandonedLanes : Nat → Byte

end Sys2Proof.Config
end

