-- ==== Sys2Proof/Syntax.lean ====
section
/-! DEFINITION. The syntax of the command set SBLT-1: draw modes, fault codes, and one constructor of
`Instr` per row of the opcode table. Operands are integers (30_encoding.md R62: each operand is the
sign-extended value of its field). -/

namespace Sys2Proof

/-- The five draw modes (00_scope.md R6, R12). -/
inductive DrawMode where
  | fill
  | outline
  | bgFill
  | bgOutline
  | xor
deriving DecidableEq, Repr

/-- The causes of a command fault (60_exceptions.md R161), in order of priority (R162). -/
inductive CmdError where
  /-- `ERR_OPCODE`: the opcode field is not in 1..5. -/
  | opcode
  /-- `ERR_RESERVED`: the reserved field is not 0. -/
  | reserved
  /-- `ERR_MODE`: the mode field is not legal for the command. -/
  | mode
  /-- `ERR_OPERAND`: an unused operand field is not 0. -/
  | operand
deriving DecidableEq, Repr

/-- The five commands (30_encoding.md R63). -/
inductive Instr where
  /-- `VLINE x1, x2, y1, y2, mode` (40_span_blitters.md R84). -/
  | vline (x1 x2 y1 y2 : Int) (mode : DrawMode)
  /-- `HLINE y, x1, x2, mode` (40_span_blitters.md R86). -/
  | hline (y x1 x2 : Int) (mode : DrawMode)
  /-- `SRESET x1, x2, upper, lower` (41_shape_boundary.md R100). -/
  | sreset (x1 x2 upper lower : Int)
  /-- `SWRITE x, upper, lower` (41_shape_boundary.md R101). -/
  | swrite (x upper lower : Int)
  /-- `SDRAW x1, x2, mode` (42_shape_draw.md R114). -/
  | sdraw (x1 x2 : Int) (mode : DrawMode)
deriving DecidableEq, Repr

end Sys2Proof
end

