-- ==== Sys2Proof/WellFormed.lean ====
section
/-! DEFINITION. Which command terms an encoding exists for: every operand is a 16-bit two's complement
value (30_encoding.md R62, R70). No other condition: any 16-bit value is legal in a used operand field
(30_encoding.md R68). -/

namespace Sys2Proof

/-- The range of an operand, −32768..32767 (30_encoding.md R62, R70). -/
def inRange16 (v : Int) : Bool := decide (-32768 ≤ v) && decide (v ≤ 32767)

/-- Whether every operand of the command is one an encoding admits. -/
def Instr.wellFormed : Instr → Bool
  | .vline x1 x2 y1 y2 _ => inRange16 x1 && inRange16 x2 && inRange16 y1 && inRange16 y2
  | .hline y x1 x2 _ => inRange16 y && inRange16 x1 && inRange16 x2
  | .sreset x1 x2 upper lower =>
      inRange16 x1 && inRange16 x2 && inRange16 upper && inRange16 lower
  | .swrite x upper lower => inRange16 x && inRange16 upper && inRange16 lower
  | .sdraw x1 x2 _ => inRange16 x1 && inRange16 x2

/-- The same as a proposition, the spelling of the statements. -/
abbrev Instr.WellFormed (i : Instr) : Prop := i.wellFormed = true

end Sys2Proof
end

