-- ==== Sys2Proof/Decode.lean ====
section
/-! DEFINITION. The command encoding (30_encoding.md): the fields of the command word, the decoder, total
on every 80-bit word and rejecting by the fault cause, and after it the encoder. -/

namespace Sys2Proof

/-! ## The fields of a command word (30_encoding.md R60, R61) -/

/-- `opcode = CW[79:76]`. -/
def opcodeField (cw : CmdWord) : BitVec 4 := cw.extractLsb' 76 4

/-- `rsv = CW[75:67]`. -/
def rsvField (cw : CmdWord) : BitVec 9 := cw.extractLsb' 67 9

/-- `mode = CW[66:64]`. -/
def modeField (cw : CmdWord) : BitVec 3 := cw.extractLsb' 64 3

/-- The control halfword `H0 = CW[79:64]`. -/
def halfH0 (cw : CmdWord) : Half := cw.extractLsb' 64 16

/-- Operand field `A = CW[63:48]`. -/
def halfA (cw : CmdWord) : Half := cw.extractLsb' 48 16

/-- Operand field `B = CW[47:32]`. -/
def halfB (cw : CmdWord) : Half := cw.extractLsb' 32 16

/-- Operand field `C = CW[31:16]`. -/
def halfC (cw : CmdWord) : Half := cw.extractLsb' 16 16

/-- Operand field `D = CW[15:0]`. -/
def halfD (cw : CmdWord) : Half := cw.extractLsb' 0 16

/-- The word of five halfwords, `H0` most significant (30_encoding.md R60, R72). -/
def wordOfHalves (h0 a b c d : Half) : CmdWord := h0 ++ a ++ b ++ c ++ d

/-- `sext_16` of 00_scope.md R9: a 16-bit field read as two's complement. -/
def sext16 (h : Half) : Int := h.toInt

/-- The 16-bit two's complement form of an integer; the inverse of `sext16` on −32768..32767. -/
def half16 (v : Int) : Half := BitVec.ofInt 16 v

/-! ## Draw-mode tags and fault codes -/

/-- The tag of a draw mode (00_scope.md R6). -/
def DrawMode.tag : DrawMode → BitVec 3
  | .fill => 1
  | .outline => 2
  | .bgFill => 3
  | .bgOutline => 4
  | .xor => 5

/-- The draw mode of a tag; 0, 6 and 7 are not draw modes (30_encoding.md R65). -/
def drawModeOfTag (t : BitVec 3) : Option DrawMode :=
  match t.toNat with
  | 1 => some .fill
  | 2 => some .outline
  | 3 => some .bgFill
  | 4 => some .bgOutline
  | 5 => some .xor
  | _ => none

/-- The code recorded in `STATUS.ERRCODE` (60_exceptions.md R161). -/
def CmdError.code : CmdError → BitVec 4
  | .opcode => 1
  | .reserved => 2
  | .mode => 3
  | .operand => 4

/-! ## The decoder (30_encoding.md R68) -/

/-- The mode check of a drawing command: the tag must be one of 1..5. -/
def withDrawMode (cw : CmdWord) (k : DrawMode → Except CmdError Instr) : Except CmdError Instr :=
  match drawModeOfTag (modeField cw) with
  | none => .error .mode
  | some m => k m

/-- The mode check of a command that takes no mode: the field must be 0. -/
def withoutMode (cw : CmdWord) (r : Except CmdError Instr) : Except CmdError Instr :=
  if modeField cw = 0 then r else .error .mode

/-- The check of an unused operand field: it must be 0 (30_encoding.md R66). -/
def unusedZero (h : Half) (r : Except CmdError Instr) : Except CmdError Instr :=
  if h = 0 then r else .error .operand

/-- The mode and operand checks of R68 for each opcode, and the command they return. -/
def decodeFields (cw : CmdWord) : Except CmdError Instr :=
  match (opcodeField cw).toNat with
  | 1 => withDrawMode cw fun m =>
      .ok (.vline (sext16 (halfA cw)) (sext16 (halfB cw)) (sext16 (halfC cw)) (sext16 (halfD cw)) m)
  | 2 => withDrawMode cw fun m => unusedZero (halfD cw)
      (.ok (.hline (sext16 (halfA cw)) (sext16 (halfB cw)) (sext16 (halfC cw)) m))
  | 3 => withoutMode cw
      (.ok (.sreset (sext16 (halfA cw)) (sext16 (halfB cw)) (sext16 (halfC cw)) (sext16 (halfD cw))))
  | 4 => withoutMode cw (unusedZero (halfD cw)
      (.ok (.swrite (sext16 (halfA cw)) (sext16 (halfB cw)) (sext16 (halfC cw)))))
  | 5 => withDrawMode cw fun m => unusedZero (halfC cw) (unusedZero (halfD cw)
      (.ok (.sdraw (sext16 (halfA cw)) (sext16 (halfB cw)) m)))
  | _ => .error .opcode

/-- Whether the opcode is one of the five defined (30_encoding.md R63). -/
def opcodeDefined (cw : CmdWord) : Bool :=
  decide (1 ≤ (opcodeField cw).toNat) && decide ((opcodeField cw).toNat ≤ 5)

/-- `Decode` of 30_encoding.md R68: the checks in the order opcode, reserved, mode, operand; the first
that fails gives the fault cause (60_exceptions.md R162). -/
def decode (cw : CmdWord) : Except CmdError Instr :=
  if opcodeDefined cw = false then .error .opcode
  else if rsvField cw ≠ 0 then .error .reserved
  else decodeFields cw

/-! ## The encoder (30_encoding.md R60 to R63) -/

/-- The control halfword of an opcode and a mode field, reserved bits 0 (30_encoding.md R61). -/
def controlHalf (opcode : BitVec 4) (mode : BitVec 3) : Half := opcode ++ (0#9) ++ mode

/-- The word of a command, unused operand fields 0 (30_encoding.md R63, R66). -/
def encode : Instr → CmdWord
  | .vline x1 x2 y1 y2 m =>
      wordOfHalves (controlHalf 1 m.tag) (half16 x1) (half16 x2) (half16 y1) (half16 y2)
  | .hline y x1 x2 m =>
      wordOfHalves (controlHalf 2 m.tag) (half16 y) (half16 x1) (half16 x2) 0
  | .sreset x1 x2 upper lower =>
      wordOfHalves (controlHalf 3 0) (half16 x1) (half16 x2) (half16 upper) (half16 lower)
  | .swrite x upper lower =>
      wordOfHalves (controlHalf 4 0) (half16 x) (half16 upper) (half16 lower) 0
  | .sdraw x1 x2 m =>
      wordOfHalves (controlHalf 5 m.tag) (half16 x1) (half16 x2) 0 0

/-! ## The opcode table's numbering -/

/-- The command word whose low `nbits` bits are those of `w` and whose other bits are 0. A command is one
80-bit word, delivered whole on the command port (20_memory.md R43), and the opcode table numbers its bits
as 30_encoding.md R60 does, bit 0 the least significant. -/
def tableWord (nbits w : Nat) : CmdWord := BitVec.ofNat 80 (w % 2 ^ nbits)

/-- The command the decoder reads from a word of the opcode table; `none` where it rejects it. -/
def decodeTableWord (nbits w : Nat) : Option Instr :=
  match decode (tableWord nbits w) with
  | .ok i => some i
  | .error _ => none

end Sys2Proof
end

