-- ==== Sys2Proof/Machine/State.lean ====
section
/-! DEFINITION. The state of the block (10_state.md), the host's actions on it (00_scope.md R13,
70_reset_and_hazards.md R192), the reasons a step can stop, and the state after reset. -/

namespace Sys2Proof.Machine

/-- What the host can do to the block between commands (00_scope.md R13; 60_exceptions.md R169;
70_reset_and_hazards.md R180, R181, R192). -/
inductive HostAction where
  /-- Present one command word on the command port (20_memory.md R40). -/
  | command (cw : CmdWord)
  /-- Write a register through the register port (10_state.md R25, R28). -/
  | regWrite (number : RegNum) (value : Half)
  /-- Read a register through the register port (10_state.md R28). -/
  | regRead (number : RegNum)
  /-- Write one framebuffer byte (20_memory.md R51). -/
  | fbWrite (address : Nat) (value : Byte)
  /-- Read one framebuffer byte (20_memory.md R51). -/
  | fbRead (address : Nat)
  /-- Assert reset between commands (70_reset_and_hazards.md R180). -/
  | reset
  /-- Present a command word and assert reset while it executes (70_reset_and_hazards.md R181). -/
  | resetDuring (cw : CmdWord)
deriving DecidableEq, Repr

/-- What a host read returned; the model's own record, log 3. -/
inductive Reply where
  /-- The value a register read returned. -/
  | register (number : RegNum) (value : Half)
  /-- The value a framebuffer read returned. -/
  | framebuffer (address : Nat) (value : Byte)
deriving DecidableEq, Repr

/-- The framebuffer's content: the bytes that differ from what an unlisted address reads as
(`memUnlisted` in Machine/Ops.lean), addresses rising (`memWf`). -/
abbrev Memory := List Host.Cell

/-- Why a step stops with a fault. The command fault of 60_exceptions.md is none of these: it is taken,
and the step answers a next state. -/
inductive Fault where
  /-- Raised by a host framebuffer access (`hostFbWrite`, `hostFbRead`) whose address is outside 0..359,
  which the spec says does not exist (20_memory.md R46). No command raises it. Safe: the model stops where
  the spec gives no behaviour; log 8. -/
  | noSuchAddress (address : Nat)
deriving DecidableEq, Repr

/-- Why a step gives its input no meaning. -/
inductive Refusal where
  /-- An instruction rejected by name in `exec`'s arm. Raised by no arm of this model: every instruction
  of the opcode table has its meaning. Safe. -/
  | notModelled (mnemonic : String)
  /-- Raised by a host framebuffer access (`hostFbWrite`, `hostFbRead`) while `STATUS.BUSY` = 1: the spec
  admits none then (70_reset_and_hazards.md R186, 93_implementation_defined.md U5). No command raises it,
  and no run from reset reaches it (`BUSY` reads 0 between commands). Safe; log 9. -/
  | framebufferInUse
deriving DecidableEq, Repr

/-- The state of the block and, below the line, the model's own fields. `CTRL` holds nothing
(10_state.md R25, R31) and has no field. -/
structure State where
  /-- `UPPER[0..71]`, raw two's complement (10_state.md R20). -/
  upper : Vector Half 72
  /-- `LOWER[0..71]`, raw two's complement (10_state.md R20). -/
  lower : Vector Half 72
  /-- `STATUS`, kept whole (10_state.md R24); its fields are read in Machine/Flags.lean. -/
  status : Half
  /-- `ERRCMD0..4` (10_state.md R27). -/
  errCmd : Vector Half 5
  /-- The framebuffer `FB[0..359]` (10_state.md R26). -/
  fb : Memory
  /-- The model's own: the host's actions still to come, oldest first (10_state.md R23); log 2. -/
  pending : List HostAction
  /-- The model's own: what the host's reads returned, oldest first; log 3. -/
  replies : List Reply
  /-- The model's own: the next free value to use (`Config.abandonedLanes`); log 7. -/
  freeIndex : Nat
deriving DecidableEq, Repr

/-- The state after reset (10_state.md R31, 70_reset_and_hazards.md R180). The framebuffer is not reset by
the block and its content is unspecified; that nothing is listed in it is DESIGN CHOICE (log 1), and so are
the model's own fields (logs 2, 3, 7). -/
def State.reset : State where
  upper := Vector.replicate 72 (half16 Config.upperEmpty)
  lower := Vector.replicate 72 (half16 Config.lowerEmpty)
  status := 0
  errCmd := Vector.replicate 5 0
  fb := []
  pending := []
  replies := []
  freeIndex := 0

end Sys2Proof.Machine
end

