-- ==== Sys2Proof/Machine/Flags.lean ====
section
/-! DEFINITION. The fields of `STATUS` and every way they change (10_state.md R24). The block has no
arithmetic flags and no condition codes (10_state.md R29); `STATUS.ERR` with `STATUS.ERRCODE` is its only
flag-like state. -/

namespace Sys2Proof.Machine

/-- `STATUS.BUSY`, bit 0 (10_state.md R24). -/
def statusBusy (st : Half) : Bool := st.getLsbD 0

/-- `STATUS.ERR`, bit 1 (10_state.md R24). -/
def statusErr (st : Half) : Bool := st.getLsbD 1

/-- `STATUS.ERRCODE`, bits 7:4 (10_state.md R24). -/
def statusErrCode (st : Half) : BitVec 4 := st.extractLsb' 4 4

/-- `STATUS` with `ERR` and `ERRCODE` given and every other bit kept. -/
def statusWithErr (st : Half) (err : Bool) (code : BitVec 4) : Half :=
  st.extractLsb' 8 8 ++ code ++ st.extractLsb' 2 2 ++ BitVec.ofBool err ++ st.extractLsb' 0 1

/-- What the register port reads: the reserved bits 3:2 and 15:8 read 0 (10_state.md R24). -/
def statusRead (st : Half) : Half := st &&& 0x00F3#16

end Sys2Proof.Machine
end

