-- ==== Sys2Proof/Machine/Operands.lean ====
section
/-! DEFINITION. Operands: clipping of coordinates (40_span_blitters.md R83), the ranges a command runs over,
the draw-mode functions (00_scope.md R12), and the bit-packer's address, bit and masks (20_memory.md R41,
40_span_blitters.md R82). Coordinates are integers until they are clipped, then naturals. -/

namespace Sys2Proof.Machine

/-! ## Clipping (40_span_blitters.md R83) -/

/-- `ClipLoX(v) = max(v, 0)`. -/
def clipLoX (v : Int) : Int := max v 0

/-- `ClipHiX(v) = min(v, 71)`. -/
def clipHiX (v : Int) : Int := min v ((Config.screenW : Int) - 1)

/-- `ClipLoY(v) = max(v, 0)`. -/
def clipLoY (v : Int) : Int := max v 0

/-- `ClipHiY(v) = min(v, 39)`. -/
def clipHiY (v : Int) : Int := min v ((Config.screenH : Int) - 1)

/-- `a..b`, ascending, none when `b < a` (00_scope.md R10), for a low end that clipping has made at least 0. -/
def upTo (a b : Int) : List Nat := List.range' a.toNat (b + 1 - a).toNat

/-- The on-screen columns of `[x1, x2]`, ascending. -/
def columns (x1 x2 : Int) : List Nat := upTo (clipLoX x1) (clipHiX x2)

/-- The on-screen rows of `[y1, y2]`, ascending. -/
def rows (y1 y2 : Int) : List Nat := upTo (clipLoY y1) (clipHiY y2)

/-! ## Draw modes (00_scope.md R12) -/

/-- The three bit operations of 40_span_blitters.md R80. -/
inductive BitOp where
  | set
  | clr
  | tgl
deriving DecidableEq, Repr

/-- `BodyOp(mode)`. -/
def bodyOp : DrawMode → BitOp
  | .fill => .set
  | .outline => .set
  | .bgFill => .clr
  | .bgOutline => .clr
  | .xor => .tgl

/-- `IsOutline(mode)`. -/
def isOutline : DrawMode → Bool
  | .fill => false
  | .outline => true
  | .bgFill => false
  | .bgOutline => true
  | .xor => false

/-- `BorderMode(mode)`, which only the outline modes have. -/
def borderMode : DrawMode → Option DrawMode
  | .fill => none
  | .outline => some .bgFill
  | .bgFill => none
  | .bgOutline => some .fill
  | .xor => none

/-! ## The bit-packer (20_memory.md R41, R42; 40_span_blitters.md R82) -/

/-- `FbAddr(x, y)`: the byte that holds pixel `(x, y)`. -/
def fbAddr (x y : Nat) : Nat := (y / 8) * Config.screenW + x

/-- `FbBit(y)`: the bit of that byte; bit 0 is the topmost row. -/
def fbBit (y : Nat) : Nat := y % 8

/-- `FbMask(y)`. -/
def fbMask (y : Nat) : Byte := 1#8 <<< fbBit y

/-- `ColMask(p, ya, yb)`: the lanes of page `p` that rows `ya..yb` cover. -/
def colMask (p ya yb : Nat) : Byte :=
  (0xFF#8 <<< (max ya (8 * p) - 8 * p)) &&& (0xFF#8 >>> (7 - (min yb (8 * p + 7) - 8 * p)))

/-- The pages `(ya >> 3)..(yb >> 3)`, ascending. -/
def pages (ya yb : Nat) : List Nat := List.range' (ya / 8) (yb / 8 + 1 - ya / 8)

end Sys2Proof.Machine
end

