-- ==== Sys2Proof/Machine/Ops.lean ====
section
/-! DEFINITION. The named operations over the framebuffer and the registers, and taking the command fault
(60_exceptions.md R163) with the return from it (R165) beside it. Every read and write of the state goes
through them. -/

namespace Sys2Proof.Machine

/-! ## The framebuffer as a list of bytes -/

/-- What an address that is not listed reads as. The spec gives the framebuffer no content at reset
(10_state.md R31, 93_implementation_defined.md U6): DESIGN CHOICE, unsafe, log 1. -/
def memUnlisted : Byte := 0x00#8

/-- `MemRead(addr, 1)` (00_scope.md R10). -/
def memRead : Memory → Nat → Byte
  | [], _ => memUnlisted
  | (k, b) :: rest, a => if k = a then b else memRead rest a

/-- `MemWrite(addr, 1, v)` (00_scope.md R10). -/
def memWrite : Memory → Nat → Byte → Memory
  | [], a, v => if v = memUnlisted then [] else [(a, v)]
  | (k, b) :: rest, a, v =>
      if a < k then (if v = memUnlisted then (k, b) :: rest else (a, v) :: (k, b) :: rest)
      else if a = k then (if v = memUnlisted then rest else (a, v) :: rest)
      else (k, b) :: memWrite rest a v

/-- The canonical form from address `lo` on: addresses strictly rising and inside 0..359
(20_memory.md R46), no byte listed that an unlisted address reads as. -/
def memWfFrom : Nat → Memory → Bool
  | _, [] => true
  | lo, (k, b) :: rest =>
      decide (lo ≤ k) && decide (k < Config.fbBytes) && decide (b ≠ memUnlisted) && memWfFrom (k + 1) rest

/-- The canonical form of the framebuffer. -/
def memWf (m : Memory) : Bool := memWfFrom 0 m

/-- The same as a proposition, the spelling of the statements. -/
abbrev MemWf (m : Memory) : Prop := memWf m = true

/-! ## Byte operations (40_span_blitters.md R80, R81) -/

/-- The byte a byte operation writes, from the byte it read (40_span_blitters.md R81). -/
def bitOpApply (op : BitOp) (b mask : Byte) : Byte :=
  match op with
  | .set => b ||| mask
  | .clr => b &&& ~~~mask
  | .tgl => b ^^^ mask

/-- One `ByteOp(op, addr, mask)`. -/
structure ByteOp where
  op : BitOp
  addr : Nat
  mask : Byte
deriving DecidableEq, Repr

/-- Perform one `ByteOp`: a read-modify-write of one byte (40_span_blitters.md R81, 20_memory.md R45). -/
def byteOpRun (m : Memory) (o : ByteOp) : Memory :=
  memWrite m o.addr (bitOpApply o.op (memRead m o.addr) o.mask)

/-- Perform a sequence of `ByteOp`s, first to last. -/
def byteOpsRun (m : Memory) (os : List ByteOp) : Memory := os.foldl byteOpRun m

/-- `PixOp(op, x, y)` as the byte operation it is (40_span_blitters.md R80). -/
def pixOp (op : BitOp) (x y : Nat) : ByteOp := ⟨op, fbAddr x y, fbMask y⟩

/-- Whether pixel `(x, y)` is set (20_memory.md R41). -/
def pixelOf (m : Memory) (x y : Nat) : Bool := (memRead m (fbAddr x y)).getLsbD (fbBit y)

/-- The state with its framebuffer changed by a sequence of byte operations. -/
def drawBytes (s : State) (os : List ByteOp) : State := { s with fb := byteOpsRun s.fb os }

/-! ## Boundary registers (10_state.md R20) -/

/-- The raw content of `UPPER[x]`; a column that has no register reads 0, as the register port does
(10_state.md R28), and no command reads one. -/
def upperRaw (s : State) (x : Nat) : Half := s.upper[x]?.getD 0

/-- The raw content of `LOWER[x]`. -/
def lowerRaw (s : State) (x : Nat) : Half := s.lower[x]?.getD 0

/-- `UPPER[x]` as an integer (00_scope.md R10). -/
def upperVal (s : State) (x : Nat) : Int := sext16 (upperRaw s x)

/-- `LOWER[x]` as an integer (00_scope.md R10). -/
def lowerVal (s : State) (x : Nat) : Int := sext16 (lowerRaw s x)

/-- `UPPER[x] <- upper; LOWER[x] <- lower`: both registers of a pair are always written together
(41_shape_boundary.md R101). -/
def writePair (s : State) (upper lower : Int) (x : Nat) : State :=
  { s with
    upper := s.upper.setIfInBounds x (half16 upper)
    lower := s.lower.setIfInBounds x (half16 lower) }

/-! ## The command fault (60_exceptions.md) -/

/-- Whether the block is in the faulted state (60_exceptions.md R164). -/
def isFaulted (s : State) : Bool := statusErr s.status

/-- The five halfwords `H0, A, B, C, D` of a command word (10_state.md R27). -/
def commandHalves (cw : CmdWord) : Vector Half 5 :=
  #v[halfH0 cw, halfA cw, halfB cw, halfC cw, halfD cw]

/-- Fault entry (60_exceptions.md R163): `STATUS.ERR`, `STATUS.ERRCODE` and `ERRCMD0..4` record the fault;
the framebuffer and every boundary register are unchanged. -/
def takeCommandFault (e : CmdError) (cw : CmdWord) (s : State) : State :=
  { s with
    status := statusWithErr s.status true e.code
    errCmd := commandHalves cw }

/-- Fault return (60_exceptions.md R165): `ERR`, `ERRCODE` and `ERRCMD0..4` become 0. -/
def leaveCommandFault (s : State) : State :=
  { s with
    status := statusWithErr s.status false 0
    errCmd := Vector.replicate 5 0 }

/-! ## The register port (10_state.md R28) -/

/-- The value a read of register `n` returns; a read changes nothing (10_state.md R28). -/
def regRead (s : State) (n : RegNum) : Half :=
  let k := n.toNat
  if k = 0x000 then statusRead s.status
  else if k = 0x001 then 0
  else if k ≤ 0x006 then s.errCmd[k - 0x002]?.getD 0
  else if k < 0x100 then 0
  else if k < 0x148 then upperRaw s (k - 0x100)
  else if k < 0x180 then 0
  else if k < 0x1C8 then lowerRaw s (k - 0x180)
  else 0

/-- A write of register `n`: only `CTRL` takes one, only its bit 0 counts, and writing 1 there leaves the
faulted state (10_state.md R25, 60_exceptions.md R165). -/
def regWrite (s : State) (n : RegNum) (v : Half) : State :=
  if n = 0x001#9 ∧ v.getLsbD 0 = true then leaveCommandFault s else s

/-! ## Reset (70_reset_and_hazards.md) -/

/-- The reset input between commands (70_reset_and_hazards.md R180): the block's own state takes its reset
values; the framebuffer, which is external, is untouched, and so is the host. -/
def blockReset (s : State) : State :=
  { s with
    upper := State.reset.upper
    lower := State.reset.lower
    status := State.reset.status
    errCmd := State.reset.errCmd }

/-- The byte operations of an abandoned command: of each one, any of its lanes may have taken effect
(70_reset_and_hazards.md R181: the prior byte, the final byte, or a byte with only some of the command's bit
operations applied). `k` is the index of the first free value used; log 7. -/
def abandonedOps : Nat → List ByteOp → List ByteOp
  | _, [] => []
  | k, o :: rest => { o with mask := o.mask &&& Config.abandonedLanes k } :: abandonedOps (k + 1) rest

/-- A reset that abandons a command whose byte operations are `os` (70_reset_and_hazards.md R181). -/
def abandonCommand (s : State) (os : List ByteOp) : State :=
  blockReset { s with
    fb := byteOpsRun s.fb (abandonedOps s.freeIndex os)
    freeIndex := s.freeIndex + os.length }

/-! ## The host's list of actions -/

/-- The next thing the host does, and the state without it (10_state.md R23). -/
def nextAction (s : State) : Option (HostAction × State) :=
  match s.pending with
  | [] => none
  | a :: rest => some (a, { s with pending := rest })

/-- Return a value to the host. -/
def reply (s : State) (r : Reply) : State := { s with replies := s.replies ++ [r] }

end Sys2Proof.Machine
end

