-- ==== Sys2Proof/Machine/Boundary.lean ====
section
/-! DEFINITION. The boundary-register commands `SRESET` and `SWRITE` (41_shape_boundary.md), the only
commands that write `UPPER[x]` and `LOWER[x]`. -/

namespace Sys2Proof.Machine

/-- Write one pair of values to the boundary registers of each column of `xs`, first to last. -/
def writePairs (s : State) (upper lower : Int) (xs : List Nat) : State :=
  xs.foldl (fun s x => writePair s upper lower x) s

/-- `SRESET x1, x2, upper, lower` (41_shape_boundary.md R100). -/
def execSreset (x1 x2 upper lower : Int) (s : State) : Host.Outcome State Fault Refusal :=
  .next (writePairs s upper lower (columns x1 x2))

/-- `SWRITE x, upper, lower` (41_shape_boundary.md R101): a column outside 0..71 writes nothing and is no
fault (D24). -/
def execSwrite (x upper lower : Int) (s : State) : Host.Outcome State Fault Refusal :=
  .next (if 0 ≤ x ∧ x ≤ (Config.screenW : Int) - 1 then writePair s upper lower x.toNat else s)

end Sys2Proof.Machine
end

