-- ==== Sys2Proof/Machine/Span.lean ====
section
/-! DEFINITION. The span blitters `VLINE` and `HLINE` (40_span_blitters.md), in the byte-level form the spec
requires (R85, R87), each operation as the list of byte operations it performs, in the reference order. -/

namespace Sys2Proof.Machine

/-- The body of a `VLINE` over on-screen columns `xs` and rows `ya..yb`: one byte operation per column and
page (40_span_blitters.md R85). -/
def vlineBody (op : BitOp) (xs : List Nat) (ya yb : Nat) : List ByteOp :=
  xs.flatMap fun x => (pages ya yb).map fun p => ⟨op, p * Config.screenW + x, colMask p ya yb⟩

/-- The toggle of one boundary row across the columns `xs` (40_span_blitters.md R85). -/
def rowToggle (xs : List Nat) (y : Nat) : List ByteOp := xs.map fun x => pixOp .tgl x y

/-- `VLINE_bytes(x1, x2, y1, y2, mode)` (40_span_blitters.md R84, R85). The guard of the bottom toggle
compares the operands as given (D16). -/
def vlineOps (x1 x2 y1 y2 : Int) (mode : DrawMode) : List ByteOp :=
  let xa := clipLoX x1
  let xb := clipHiX x2
  let ya := clipLoY y1
  let yb := clipHiY y2
  if xb < xa ∨ yb < ya then []
  else
    vlineBody (bodyOp mode) (upTo xa xb) ya.toNat yb.toNat
      ++ (if isOutline mode = true ∧ y1 = ya then rowToggle (upTo xa xb) ya.toNat else [])
      ++ (if isOutline mode = true ∧ y2 = yb ∧ y1 ≠ y2 then rowToggle (upTo xa xb) yb.toNat else [])

/-- `HLINE(y, x1, x2, mode)` as byte operations (40_span_blitters.md R86, R87). -/
def hlineOps (y x1 x2 : Int) (mode : DrawMode) : List ByteOp :=
  let xa := clipLoX x1
  let xb := clipHiX x2
  if y < 0 ∨ (Config.screenH : Int) - 1 < y ∨ xb < xa then []
  else
    (upTo xa xb).map (fun x => pixOp (bodyOp mode) x y.toNat)
      ++ (if isOutline mode = true ∧ x1 = xa then [pixOp .tgl xa.toNat y.toNat] else [])
      ++ (if isOutline mode = true ∧ x2 = xb ∧ x1 ≠ x2 then [pixOp .tgl xb.toNat y.toNat] else [])

/-- `VLINE x1, x2, y1, y2, mode` (40_span_blitters.md R84): only the framebuffer changes; nothing faults. -/
def execVline (x1 x2 y1 y2 : Int) (mode : DrawMode) (s : State) : Host.Outcome State Fault Refusal :=
  .next (drawBytes s (vlineOps x1 x2 y1 y2 mode))

/-- `HLINE y, x1, x2, mode` (40_span_blitters.md R86): only the framebuffer changes; nothing faults. -/
def execHline (y x1 x2 : Int) (mode : DrawMode) (s : State) : Host.Outcome State Fault Refusal :=
  .next (drawBytes s (hlineOps y x1 x2 mode))

end Sys2Proof.Machine
end

