-- ==== Sys2Proof/Machine/Shape.lean ====
section
/-! DEFINITION. `SDRAW` and the outline reconstructor (42_shape_draw.md). -/

namespace Sys2Proof.Machine

/-- The neighbours of column `x` that exist: `x − 1` and `x + 1` inside 0..71 (42_shape_draw.md R115). -/
def neighbours (x : Nat) : List Nat :=
  (if 0 < x then [x - 1] else []) ++ (if x + 1 < Config.screenW then [x + 1] else [])

/-- Whether column `x` holds an empty span: `LOWER[x] < UPPER[x]` (10_state.md R21). -/
def columnEmpty (s : State) (x : Nat) : Bool := decide (lowerVal s x < upperVal s x)

/-- `EffBoundary(x)` (42_shape_draw.md R116): collapsed to `(l, u)` beside an empty neighbour, otherwise
tightened toward the intersection with the neighbours' spans. -/
def effBoundary (s : State) (x : Nat) : Int × Int :=
  if (neighbours x).any (columnEmpty s) = true then (lowerVal s x, upperVal s x)
  else ((neighbours x).foldl (fun b n => max b (upperVal s n)) (upperVal s x),
        (neighbours x).foldl (fun b n => min b (lowerVal s n)) (lowerVal s x))

/-- The upper gap of column `x` filled in the border mode, cut to the own interior
(42_shape_draw.md R117). -/
def upperGapOps (s : State) (x : Nat) (bm : DrawMode) : List ByteOp :=
  vlineOps x x (upperVal s x + 1) (min ((effBoundary s x).1 - 1) (lowerVal s x - 1)) bm

/-- The lower gap of column `x` filled in the border mode, cut to the own interior
(42_shape_draw.md R117). -/
def lowerGapOps (s : State) (x : Nat) (bm : DrawMode) : List ByteOp :=
  vlineOps x x (max ((effBoundary s x).2 + 1) (upperVal s x + 1)) (lowerVal s x - 1) bm

/-- What `SDRAW x1, x2, mode` does in the drawn column `x` (42_shape_draw.md R112, R113, R117). A column
equal to an operand as given is an edge column (D21). -/
def columnOps (s : State) (x1 x2 : Int) (mode : DrawMode) (x : Nat) : List ByteOp :=
  match borderMode mode with
  | none => vlineOps x x (upperVal s x) (lowerVal s x) mode
  | some bm =>
      if (x : Int) = x1 ∨ (x : Int) = x2 then vlineOps x x (upperVal s x) (lowerVal s x) bm
      else vlineOps x x (upperVal s x) (lowerVal s x) mode ++ upperGapOps s x bm ++ lowerGapOps s x bm

/-- `SDRAW(x1, x2, mode)` as byte operations, columns ascending (42_shape_draw.md R111, R114). The
boundary registers are read only. -/
def sdrawOps (s : State) (x1 x2 : Int) (mode : DrawMode) : List ByteOp :=
  (columns x1 x2).flatMap (columnOps s x1 x2 mode)

/-- `SDRAW x1, x2, mode` (42_shape_draw.md R114): only the framebuffer changes; nothing faults. -/
def execSdraw (x1 x2 : Int) (mode : DrawMode) (s : State) : Host.Outcome State Fault Refusal :=
  .next (drawBytes s (sdrawOps s x1 x2 mode))

end Sys2Proof.Machine
end

