-- ==== Sys2Proof/Machine/Dispatch.lean ====
section
/-! DEFINITION. `exec`: one arm per command (30_encoding.md R63), each a direct call of its meaning. -/

namespace Sys2Proof.Machine

def exec (i : Instr) (s : State) : Host.Outcome State Fault Refusal :=
  match i with
  | .vline x1 x2 y1 y2 mode => Sys2Proof.Machine.execVline x1 x2 y1 y2 mode s
  | .hline y x1 x2 mode => Sys2Proof.Machine.execHline y x1 x2 mode s
  | .sreset x1 x2 upper lower => Sys2Proof.Machine.execSreset x1 x2 upper lower s
  | .swrite x upper lower => Sys2Proof.Machine.execSwrite x upper lower s
  | .sdraw x1 x2 mode => Sys2Proof.Machine.execSdraw x1 x2 mode s

end Sys2Proof.Machine
end

