-- ==== Sys2Proof/Machine/Port.lean ====
section
/-! DEFINITION. The three interfaces of the block (20_memory.md R40): what the block does with a word on the
command port, and with each host action. -/

namespace Sys2Proof.Machine

/-- A command word on the command port. While faulted the block discards it without decoding it
(60_exceptions.md R164); otherwise it decodes it and executes the command, or takes the command fault
(30_encoding.md R68, 60_exceptions.md R163). -/
def acceptCommand (cw : CmdWord) (s : State) : Host.Outcome State Fault Refusal :=
  if isFaulted s = true then .next s
  else match decode cw with
    | .ok i => exec i s
    | .error e => .next (takeCommandFault e cw s)

/-- The byte operations of a command, from the boundary registers as they stand; none for `SRESET` and
`SWRITE`, which do not touch the framebuffer (41_shape_boundary.md R100, R101). -/
def commandOps (s : State) : Instr → List ByteOp
  | .vline x1 x2 y1 y2 mode => vlineOps x1 x2 y1 y2 mode
  | .hline y x1 x2 mode => hlineOps y x1 x2 mode
  | .sreset _ _ _ _ => []
  | .swrite _ _ _ => []
  | .sdraw x1 x2 mode => sdrawOps s x1 x2 mode

/-- The byte operations a word presented on the command port leads to: none when the block is faulted or the
word is illegal. -/
def wordOps (s : State) (cw : CmdWord) : List ByteOp :=
  if isFaulted s = true then []
  else match decode cw with
    | .ok i => commandOps s i
    | .error _ => []

/-- A host framebuffer access is admitted when no command executes and the address exists
(70_reset_and_hazards.md R186, 20_memory.md R46); logs 8 and 9. -/
def hostFbAccess (s : State) (a : Nat) (k : State) : Host.Outcome State Fault Refusal :=
  if statusBusy s.status = true then .refused .framebufferInUse
  else if a < Config.fbBytes then .next k
  else .fault (.noSuchAddress a)

/-- One host action (00_scope.md R13, 70_reset_and_hazards.md R192). -/
def hostAct (a : HostAction) (s : State) : Host.Outcome State Fault Refusal :=
  match a with
  | .command cw => acceptCommand cw s
  | .regWrite n v => .next (regWrite s n v)
  | .regRead n => .next (reply s (.register n (regRead s n)))
  | .fbWrite a v => hostFbAccess s a { s with fb := memWrite s.fb a v }
  | .fbRead a => hostFbAccess s a (reply s (.framebuffer a (memRead s.fb a)))
  | .reset => .next (blockReset s)
  | .resetDuring cw => .next (abandonCommand s (wordOps s cw))

/-- One step: the host's next action, or nothing when it presents none (the block is idle; log 5). -/
def hostStep (s : State) : Host.Outcome State Fault Refusal :=
  match nextAction s with
  | none => .next s
  | some (a, s') => hostAct a s'

/-- The state with a command word as the next thing the host presents. -/
def presentWord (s : State) (cw : CmdWord) : State := { s with pending := .command cw :: s.pending }

end Sys2Proof.Machine
end

