-- ==== Sys2Proof/Machine/Step.lean ====
section
/-! DEFINITION. The step of the machine, and a state in which a given word is the next one it takes. -/

namespace Sys2Proof.Machine

/-- One step of the machine: one host action, taken as a whole (00_scope.md R13, 20_memory.md R48). -/
def step (s : State) : Host.Outcome State Fault Refusal := hostStep s

/-- `s` with the instruction whose bits are `w`, numbered as the opcode table numbers them, as the next word
on the command port: the block fetches nothing (10_state.md R23), the host presents it; log 2. -/
def State.withFetchWord (s : State) (nbits w : Nat) : State := presentWord s (tableWord nbits w)

end Sys2Proof.Machine
end

