-- ==== Sys2Proof/Machine/Assembler.lean ====
section
/-! DEFINITION. The assembler that stands before the command port: pseudo-commands and their expansions
(43_pseudo_commands.md R130 to R134), the textual form of a command (30_encoding.md R70) and the hexadecimal
form of a word (R72). The block sees none of it; it sees the words. -/

namespace Sys2Proof.Machine

/-! ## Pseudo-commands (43_pseudo_commands.md) -/

/-- `PIXEL x, y, mode` (43_pseudo_commands.md R131). -/
def expandPixel (x y : Int) (mode : DrawMode) : List Instr := [.vline x x y y mode]

/-- `RECT_OUTLINE x1, y1, x2, y2, mode` on an upright rectangle (43_pseudo_commands.md R133). -/
def expandRectOutline (x1 y1 x2 y2 : Int) (mode : DrawMode) : List Instr :=
  [.vline x1 x1 y1 y2 mode]
    ++ (if x2 ≠ x1 then [.vline x2 x2 y1 y2 mode] else [])
    ++ (if 2 < x2 - x1 + 1 then
          [.hline y1 (x1 + 1) (x2 - 1) mode]
            ++ (if y2 ≠ y1 then [.hline y2 (x1 + 1) (x2 - 1) mode] else [])
        else [])

/-- `RECT x1, y1, x2, y2, mode` on an upright rectangle (43_pseudo_commands.md R132). -/
def expandRect (x1 y1 x2 y2 : Int) (mode : DrawMode) : List Instr :=
  match mode with
  | .fill => [.vline x1 x2 y1 y2 .fill]
  | .bgFill => [.vline x1 x2 y1 y2 .bgFill]
  | .xor => [.vline x1 x2 y1 y2 .xor]
  | .outline =>
      .vline (x1 + 1) (x2 - 1) (y1 + 1) (y2 - 1) .fill :: expandRectOutline x1 y1 x2 y2 .bgFill
  | .bgOutline =>
      .vline (x1 + 1) (x2 - 1) (y1 + 1) (y2 - 1) .bgFill :: expandRectOutline x1 y1 x2 y2 .fill

/-- `SRESET x1, x2` with the default pair (43_pseudo_commands.md R134). -/
def expandSresetRange (x1 x2 : Int) : List Instr :=
  [.sreset x1 x2 Config.upperEmpty Config.lowerEmpty]

/-- `SRESET` with no operands: every column empty (43_pseudo_commands.md R134). -/
def expandSresetAll : List Instr := expandSresetRange 0 ((Config.screenW : Int) - 1)

/-- The assembler refuses a line one of whose commands has an operand outside −32768..32767
(30_encoding.md R70, 43_pseudo_commands.md R130). -/
def emitIfLegal (is : List Instr) : Option (List Instr) :=
  if is.all Instr.wellFormed = true then some is else none

/-- The precondition of the rectangle forms: `x1 ≤ x2` and `y1 ≤ y2` (43_pseudo_commands.md R132, R133;
93_implementation_defined.md U16), on the operands as given, each in range. -/
def uprightOnly (x1 y1 x2 y2 : Int) (is : List Instr) : Option (List Instr) :=
  if x1 ≤ x2 ∧ y1 ≤ y2 then emitIfLegal is else none

/-! ## The operands of a line (30_encoding.md R70) -/

/-- An operand as it is written: an integer or a name. -/
inductive AsmOperand where
  | int (v : Int)
  | name (cs : List Char)
deriving DecidableEq, Repr

/-- A draw mode by its name. -/
def drawModeOfName (cs : List Char) : Option DrawMode :=
  if cs = "fill".toList then some .fill
  else if cs = "outline".toList then some .outline
  else if cs = "bg_fill".toList then some .bgFill
  else if cs = "bg_outline".toList then some .bgOutline
  else if cs = "xor".toList then some .xor
  else none

/-- The mode operand: by name, or by tag 1..5 (30_encoding.md R70). -/
def modeOperand : AsmOperand → Option DrawMode
  | .name cs => drawModeOfName cs
  | .int v => if 0 ≤ v ∧ v < 8 then drawModeOfTag (BitVec.ofInt 3 v) else none

/-- The commands of one line from its mnemonic and operands, the operand order of 30_encoding.md R63;
`none` where the assembler refuses the line: an unknown mnemonic, a wrong operand count, an unknown mode, a
value out of range, an inverted rectangle. -/
def assembleParts (mnemonic : List Char) (operands : List AsmOperand) : Option (List Instr) :=
  match operands with
  | [] => if mnemonic = "SRESET".toList then emitIfLegal expandSresetAll else none
  | [.int x1, .int x2] =>
      if mnemonic = "SRESET".toList then emitIfLegal (expandSresetRange x1 x2) else none
  | [.int a, .int b, m] =>
      if mnemonic = "SWRITE".toList then
        match m with
        | .int c => emitIfLegal [.swrite a b c]
        | .name _ => none
      else if mnemonic = "SDRAW".toList then (modeOperand m).bind fun mode => emitIfLegal [.sdraw a b mode]
      else if mnemonic = "PIXEL".toList then
        (modeOperand m).bind fun mode => emitIfLegal (expandPixel a b mode)
      else none
  | [.int a, .int b, .int c, m] =>
      if mnemonic = "SRESET".toList then
        match m with
        | .int d => emitIfLegal [.sreset a b c d]
        | .name _ => none
      else if mnemonic = "HLINE".toList then
        (modeOperand m).bind fun mode => emitIfLegal [.hline a b c mode]
      else none
  | [.int a, .int b, .int c, .int d, m] =>
      if mnemonic = "VLINE".toList then
        (modeOperand m).bind fun mode => emitIfLegal [.vline a b c d mode]
      else if mnemonic = "RECT".toList then
        (modeOperand m).bind fun mode => uprightOnly a b c d (expandRect a b c d mode)
      else if mnemonic = "RECT_OUTLINE".toList then
        (modeOperand m).bind fun mode => uprightOnly a b c d (expandRectOutline a b c d mode)
      else none
  | _ => none

/-! ## The text of a line (30_encoding.md R70) -/

/-- White space between the parts of a line. -/
def isBlank (c : Char) : Bool := c = ' ' || c = '\t'

/-- The text without blanks at its two ends. -/
def trimBlanks (cs : List Char) : List Char :=
  ((cs.dropWhile isBlank).reverse.dropWhile isBlank).reverse

/-- The line without its comment: `;` starts one. -/
def withoutComment (cs : List Char) : List Char := cs.takeWhile fun c => c ≠ ';'

/-- The parts of a text between commas. -/
def splitCommas : List Char → List (List Char)
  | [] => [[]]
  | c :: rest =>
      match splitCommas rest with
      | [] => [[c]]
      | part :: parts => if c = ',' then [] :: part :: parts else (c :: part) :: parts

/-- A decimal digit. -/
def decimalDigit (c : Char) : Option Nat :=
  if '0'.toNat ≤ c.toNat ∧ c.toNat ≤ '9'.toNat then some (c.toNat - '0'.toNat) else none

/-- A hexadecimal digit. -/
def hexDigit (c : Char) : Option Nat :=
  if '0'.toNat ≤ c.toNat ∧ c.toNat ≤ '9'.toNat then some (c.toNat - '0'.toNat)
  else if 'a'.toNat ≤ c.toNat ∧ c.toNat ≤ 'f'.toNat then some (c.toNat - 'a'.toNat + 10)
  else if 'A'.toNat ≤ c.toNat ∧ c.toNat ≤ 'F'.toNat then some (c.toNat - 'A'.toNat + 10)
  else none

/-- The digits of a number in a base, most significant first, onto the value read so far. -/
def digitsFrom (base : Nat) (digit : Char → Option Nat) : Nat → List Char → Option Nat
  | v, [] => some v
  | v, c :: rest => (digit c).bind fun d => digitsFrom base digit (v * base + d) rest

/-- A number in a base; it has at least one digit. -/
def number (base : Nat) (digit : Char → Option Nat) (cs : List Char) : Option Nat :=
  if cs = [] then none else digitsFrom base digit 0 cs

/-- One operand: hexadecimal after `0x`, decimal with an optional minus sign, otherwise a name. -/
def readOperand (cs : List Char) : AsmOperand :=
  match cs with
  | '0' :: 'x' :: hs =>
      match number 16 hexDigit hs with
      | some n => .int n
      | none => .name cs
  | '-' :: ds =>
      match number 10 decimalDigit ds with
      | some n => .int (-n)
      | none => .name cs
  | ds =>
      match number 10 decimalDigit ds with
      | some n => .int n
      | none => .name cs

/-- The operands of a line from the text after its mnemonic. -/
def readOperands (cs : List Char) : List AsmOperand :=
  if trimBlanks cs = [] then [] else (splitCommas cs).map fun part => readOperand (trimBlanks part)

/-- The commands of one line of text; a line with nothing but a comment gives none (log 11). -/
def assembleLine (line : List Char) : Option (List Instr) :=
  let body := trimBlanks (withoutComment line)
  if body = [] then some []
  else
    assembleParts (body.takeWhile fun c => !isBlank c)
      (readOperands (body.dropWhile fun c => !isBlank c))

/-- The words the assembler emits for one line (30_encoding.md R70). -/
def assembleWords (line : List Char) : Option (List CmdWord) :=
  (assembleLine line).map fun is => is.map encode

/-! ## The hexadecimal text form of a word (30_encoding.md R72) -/

/-- A hexadecimal digit as a character. -/
def hexChar (d : Nat) : Char :=
  if d < 10 then Char.ofNat ('0'.toNat + d) else Char.ofNat ('A'.toNat + (d - 10))

/-- A halfword as four digits, most significant first. -/
def hexHalf (h : Half) : List Char :=
  [hexChar (h.toNat / 4096 % 16), hexChar (h.toNat / 256 % 16), hexChar (h.toNat / 16 % 16),
   hexChar (h.toNat % 16)]

/-- A command word as `H0 A B C D`. -/
def hexText (cw : CmdWord) : List Char :=
  hexHalf (halfH0 cw) ++ [' '] ++ hexHalf (halfA cw) ++ [' '] ++ hexHalf (halfB cw) ++ [' ']
    ++ hexHalf (halfC cw) ++ [' '] ++ hexHalf (halfD cw)

end Sys2Proof.Machine
end

