-- ==== Sys2Proof/Machine/Picture.lean ====
section
/-! DEFINITION. The drawing commands read pixel by pixel: the spec's pixel-level pseudocode
(40_span_blitters.md R84, 42_shape_draw.md R114) beside the byte-level form that `exec` runs, and the pixel
results the spec tabulates (R84, R86, R114). -/

namespace Sys2Proof.Machine

/-! ## The pixel-level pseudocode -/

/-- `VLINE` as the pixel operations of 40_span_blitters.md R84, in the order written there. -/
def vlinePixelOps (x1 x2 y1 y2 : Int) (mode : DrawMode) : List ByteOp :=
  let xa := clipLoX x1
  let xb := clipHiX x2
  let ya := clipLoY y1
  let yb := clipHiY y2
  if xb < xa ∨ yb < ya then []
  else
    ((upTo xa xb).flatMap fun x => (upTo ya yb).map fun y => pixOp (bodyOp mode) x y)
      ++ (if isOutline mode = true ∧ y1 = ya then (upTo xa xb).map (fun x => pixOp .tgl x ya.toNat) else [])
      ++ (if isOutline mode = true ∧ y2 = yb ∧ y1 ≠ y2 then
            (upTo xa xb).map (fun x => pixOp .tgl x yb.toNat) else [])

/-- The body of the column loop of `SDRAW` (42_shape_draw.md R114), over the pixel-level `VLINE`. -/
def columnPixelOps (s : State) (x1 x2 : Int) (mode : DrawMode) (x : Nat) : List ByteOp :=
  let u := upperVal s x
  let l := lowerVal s x
  match borderMode mode with
  | none => vlinePixelOps x x u l mode
  | some bm =>
      if (x : Int) = x1 ∨ (x : Int) = x2 then vlinePixelOps x x u l bm
      else
        vlinePixelOps x x u l mode
          ++ vlinePixelOps x x (u + 1) (min ((effBoundary s x).1 - 1) (l - 1)) bm
          ++ vlinePixelOps x x (max ((effBoundary s x).2 + 1) (u + 1)) (l - 1) bm

/-- `SDRAW` over the pixel-level `VLINE` (42_shape_draw.md R114). -/
def sdrawPixelOps (s : State) (x1 x2 : Int) (mode : DrawMode) : List ByteOp :=
  (columns x1 x2).flatMap (columnPixelOps s x1 x2 mode)

/-! ## The pixel results -/

/-- What a draw mode makes of a pixel of a span with prior value `p`, on a border or not
(40_span_blitters.md R84, the table of resulting values). -/
def spanValue (mode : DrawMode) (border p : Bool) : Bool :=
  match mode with
  | .fill => true
  | .outline => !border
  | .bgFill => false
  | .bgOutline => border
  | .xor => !p

/-- What a bit operation makes of a pixel's bit `p` (40_span_blitters.md R80). -/
def bitResult (op : BitOp) (p : Bool) : Bool :=
  match op with
  | .set => true
  | .clr => false
  | .tgl => !p

/-- What a sequence of byte operations makes of lane `i` of the byte at `a`, from its bit `p` before
(40_span_blitters.md R81, R90). -/
def laneRun (a i : Nat) (os : List ByteOp) (p : Bool) : Bool :=
  os.foldl (fun p o => if o.addr = a ∧ o.mask.getLsbD i = true then bitResult o.op p else p) p

/-- Whether `v` lies in the clipped range `[max(lo, 0), min(hi, last)]`. -/
def inClipped (lo hi last : Int) (v : Nat) : Bool :=
  decide (max lo 0 ≤ (v : Int)) && decide ((v : Int) ≤ min hi last)

/-- Whether the pixel lies in the clipped rectangle of a `VLINE` (40_span_blitters.md R84). -/
def inRect (x1 x2 y1 y2 : Int) (x y : Nat) : Bool := inClipped x1 x2 71 x && inClipped y1 y2 39 y

/-- The pixel `(x, y)` after a `VLINE`, from its value `p` before (40_span_blitters.md R84): the boundary
rows are the rows of the span equal to an operand as given. -/
def vlineValue (x1 x2 y1 y2 : Int) (mode : DrawMode) (x y : Nat) (p : Bool) : Bool :=
  if inRect x1 x2 y1 y2 x y = true then spanValue mode (decide ((y : Int) = y1 ∨ (y : Int) = y2)) p else p

/-- The pixel `(x, y)` after an `HLINE`, from its value `p` before (40_span_blitters.md R86): the end pixels
are the columns of the span equal to an operand as given. -/
def hlineValue (y0 x1 x2 : Int) (mode : DrawMode) (x y : Nat) (p : Bool) : Bool :=
  if (y : Int) = y0 ∧ inClipped x1 x2 71 x = true then
    spanValue mode (decide ((x : Int) = x1 ∨ (x : Int) = x2)) p
  else p

/-- Whether row `y` of the drawn column `x` is border in an outline mode (42_shape_draw.md R113, R114,
R118): the whole span of an edge column; elsewhere the span's own end rows, and every row that some existing
neighbour's span does not hold. -/
def sdrawBorder (s : State) (x1 x2 : Int) (x y : Nat) : Bool :=
  decide ((x : Int) = x1) || decide ((x : Int) = x2)
    || decide ((y : Int) = upperVal s x) || decide ((y : Int) = lowerVal s x)
    || (neighbours x).any fun n =>
        columnEmpty s n || decide ((y : Int) < upperVal s n) || decide (lowerVal s n < (y : Int))

/-- Whether `SDRAW x1, x2` draws the pixel: a drawn column, a row of its own span. -/
def inShape (s : State) (x1 x2 : Int) (x y : Nat) : Bool :=
  inClipped x1 x2 71 x && inClipped (upperVal s x) (lowerVal s x) 39 y

/-- The pixel `(x, y)` after an `SDRAW`, from its value `p` before (42_shape_draw.md R112, R113, R114). -/
def sdrawValue (s : State) (x1 x2 : Int) (mode : DrawMode) (x y : Nat) (p : Bool) : Bool :=
  if inShape s x1 x2 x y = true then spanValue mode (sdrawBorder s x1 x2 x y) p else p

/-- Whether a command may change the pixel (40_span_blitters.md R88 item 4, 42_shape_draw.md R120 item 1;
41_shape_boundary.md R100, R101). -/
def commandReaches (s : State) : Instr → Nat → Nat → Bool
  | .vline x1 x2 y1 y2 _, x, y => inRect x1 x2 y1 y2 x y
  | .hline y0 x1 x2 _, x, y => decide ((y : Int) = y0) && inClipped x1 x2 71 x
  | .sreset _ _ _ _, _, _ => false
  | .swrite _ _ _, _, _ => false
  | .sdraw x1 x2 _, x, y => inShape s x1 x2 x y

end Sys2Proof.Machine
end

