-- ==== Sys2Proof/Safety.lean ====
section
/-! DEFINITION. What counts as a safe run, in the terms the statements use: the invariant of the state, the
end of a run (70_reset_and_hazards.md R192), and the parts of the state a command leaves alone. -/

namespace Sys2Proof.Machine

/-- The command word recorded in `ERRCMD0..4` (10_state.md R27). -/
def errCmdWord (s : State) : CmdWord :=
  wordOfHalves (s.errCmd[0]) (s.errCmd[1]) (s.errCmd[2]) (s.errCmd[3]) (s.errCmd[4])

/-- The fault record means what the spec says: while faulted, `ERRCMD0..4` hold a word the decoder rejects
with the cause in `ERRCODE`; otherwise both are 0 (10_state.md R24, R27; 60_exceptions.md R161, R164). -/
def faultRecordOk (s : State) : Bool :=
  if isFaulted s = true then
    match decode (errCmdWord s) with
    | .error e => decide (statusErrCode s.status = e.code)
    | .ok _ => false
  else decide (statusErrCode s.status = 0) && decide (s.errCmd = Vector.replicate 5 0)

/-- `BUSY` and the reserved bits of `STATUS` are 0 (10_state.md R24). -/
def statusQuiet (s : State) : Bool := decide (s.status &&& 0xFF0D#16 = 0)

/-- The invariant of the machine: the framebuffer's canonical form with every address inside 0..359
(20_memory.md R46), a quiet `STATUS`, a true fault record. -/
def stateInv (s : State) : Bool := memWf s.fb && statusQuiet s && faultRecordOk s

/-- The same as a proposition, the spelling of the statements. -/
abbrev StateInv (s : State) : Prop := stateInv s = true

/-- A run has ended well: the list is exhausted, the block is idle and not faulted
(70_reset_and_hazards.md R192). -/
abbrev EndedWell (s : State) : Prop :=
  s.pending = [] ∧ statusBusy s.status = false ∧ isFaulted s = false

/-- A run has ended faulted (70_reset_and_hazards.md R192). -/
abbrev EndedFaulted (s : State) : Prop := s.pending = [] ∧ isFaulted s = true

/-- The two states hold the same boundary registers. -/
abbrev SameBoundary (s t : State) : Prop := t.upper = s.upper ∧ t.lower = s.lower

/-- The two states hold the same control and status registers. -/
abbrev SameControl (s t : State) : Prop := t.status = s.status ∧ t.errCmd = s.errCmd

/-- The two states agree on the model's own fields: nothing of the host's has moved. -/
abbrev SameHost (s t : State) : Prop :=
  t.pending = s.pending ∧ t.replies = s.replies ∧ t.freeIndex = s.freeIndex

/-- What a drawing command leaves alone: everything but the framebuffer. -/
abbrev OnlyFramebuffer (s t : State) : Prop := SameBoundary s t ∧ SameControl s t ∧ SameHost s t

/-- What a boundary command leaves alone: everything but the boundary registers. -/
abbrev OnlyBoundary (s t : State) : Prop := t.fb = s.fb ∧ SameControl s t ∧ SameHost s t

/-- Run the commands of a list, first to last: a run has no branches, it is a left fold
(30_encoding.md R73, 70_reset_and_hazards.md R192). -/
def execAll : List Instr → State → Host.Outcome State Fault Refusal
  | [], s => .next s
  | i :: is, s =>
      match exec i s with
      | .next t => execAll is t
      | .fault r => .fault r
      | .refused r => .refused r

end Sys2Proof.Machine
end

