-- ==== Sys2Proof/Certificates/Slice0/Obligations.lean ====
section
/-! DEFINITION. The statements about the model, each named after what it says; the rules each one rests on
stand in its docstring and in OBLIGATIONS.json. -/

open Sys2Proof Sys2Proof.Machine

/-! ## Terms the statements share -/

/-- The draw-mode tags of 00_scope.md R6, as the spec lists them. -/
def Sys2Proof.Statements.tagTable : List (Nat × DrawMode) :=
  [(1, .fill), (2, .outline), (3, .bgFill), (4, .bgOutline), (5, .xor)]

/-- The number of bits 79:76 of a word, by arithmetic on the word's value. -/
def Sys2Proof.Statements.opcodeNumber (cw : CmdWord) : Nat := cw.toNat / 2 ^ 76

/-- The number of bits 75:67. -/
def Sys2Proof.Statements.reservedNumber (cw : CmdWord) : Nat := cw.toNat / 2 ^ 67 % 2 ^ 9

/-- The number of bits 66:64. -/
def Sys2Proof.Statements.modeNumber (cw : CmdWord) : Nat := cw.toNat / 2 ^ 64 % 2 ^ 3

/-- The operand field whose lowest bit is bit `lo`, as the signed value of its 16 bits. -/
def Sys2Proof.Statements.operandValue (cw : CmdWord) (lo : Nat) : Int :=
  let v : Nat := cw.toNat / 2 ^ lo % 2 ^ 16
  if v < 2 ^ 15 then (v : Int) else (v : Int) - 65536

/-- The word of opcode `op`, tag `tag` and four integer operands, reserved bits 0. -/
def Sys2Proof.Statements.wordOf (op tag : Nat) (a b c d : Int) : CmdWord :=
  wordOfHalves (BitVec.ofNat 16 (op * 4096 + tag)) (BitVec.ofInt 16 a) (BitVec.ofInt 16 b) (BitVec.ofInt 16 c)
    (BitVec.ofInt 16 d)

/-- Every byte that holds no pixel of `reach` is unchanged. -/
abbrev Sys2Proof.Statements.BytesOutside (reach : Nat → Nat → Bool) (s t : State) : Prop :=
  ∀ a : Nat, (∀ x y : Nat, x < 72 → y < 40 → reach x y = true → a ≠ fbAddr x y) → memRead t.fb a = memRead s.fb a

/-- Every on-screen pixel of `t` is what `f` makes of the pixel of `s`. -/
abbrev Sys2Proof.Statements.PixelsBecome (f : Nat → Nat → Bool → Bool) (s t : State) : Prop :=
  ∀ x y : Nat, x < 72 → y < 40 → pixelOf t.fb x y = f x y (pixelOf s.fb x y)

/-- A drawing command in the given mode. -/
inductive Sys2Proof.Statements.Draws : DrawMode → Instr → Prop where
  | vline (x1 x2 y1 y2 : Int) (m : DrawMode) : Draws m (.vline x1 x2 y1 y2 m)
  | hline (y x1 x2 : Int) (m : DrawMode) : Draws m (.hline y x1 x2 m)
  | sdraw (x1 x2 : Int) (m : DrawMode) : Draws m (.sdraw x1 x2 m)

open Sys2Proof.Statements

/-! ## The encoding (30_encoding.md) -/

/-- Decoding the word of a well-formed command gives the command back, every operand at every 16-bit value
(R60 to R63, R68). -/
def Obligations.DecodeEncodeRoundTrip : Prop :=
  ∀ i : Instr, i.WellFormed → decode (encode i) = .ok i

/-- A word that decodes is the word of the command it decodes to: no bit of a legal word is dropped, and two
legal words never mean the same (R66, R67). -/
def Obligations.LegalWordIsTheEncodingOfItsCommand : Prop :=
  ∀ (cw : CmdWord) (i : Instr), decode cw = .ok i → i.WellFormed ∧ encode i = cw

/-- The decoder of R68 on every word, its fields read by arithmetic on the word's value: the checks in their
order, the code of the first that fails, and the command and operands of a legal word. -/
def Obligations.DecoderFollowsTheOrderedChecks : Prop :=
  ∀ cw : CmdWord,
    (¬(1 ≤ opcodeNumber cw ∧ opcodeNumber cw ≤ 5) → decode cw = .error .opcode) ∧
    (1 ≤ opcodeNumber cw ∧ opcodeNumber cw ≤ 5 → reservedNumber cw ≠ 0 → decode cw = .error .reserved) ∧
    (1 ≤ opcodeNumber cw ∧ opcodeNumber cw ≤ 5 → reservedNumber cw = 0 →
      ((opcodeNumber cw = 1 ∨ opcodeNumber cw = 2 ∨ opcodeNumber cw = 5) →
        ¬(1 ≤ modeNumber cw ∧ modeNumber cw ≤ 5) → decode cw = .error .mode) ∧
      ((opcodeNumber cw = 3 ∨ opcodeNumber cw = 4) → modeNumber cw ≠ 0 → decode cw = .error .mode) ∧
      (opcodeNumber cw = 3 → modeNumber cw = 0 →
        decode cw = .ok (.sreset (operandValue cw 48) (operandValue cw 32) (operandValue cw 16)
          (operandValue cw 0))) ∧
      (opcodeNumber cw = 4 → modeNumber cw = 0 → operandValue cw 0 ≠ 0 → decode cw = .error .operand) ∧
      (opcodeNumber cw = 4 → modeNumber cw = 0 → operandValue cw 0 = 0 →
        decode cw = .ok (.swrite (operandValue cw 48) (operandValue cw 32) (operandValue cw 16))) ∧
      (∀ tm ∈ tagTable, modeNumber cw = tm.1 →
        (opcodeNumber cw = 1 →
          decode cw = .ok (.vline (operandValue cw 48) (operandValue cw 32) (operandValue cw 16)
            (operandValue cw 0) tm.2)) ∧
        (opcodeNumber cw = 2 → operandValue cw 0 ≠ 0 → decode cw = .error .operand) ∧
        (opcodeNumber cw = 2 → operandValue cw 0 = 0 →
          decode cw = .ok (.hline (operandValue cw 48) (operandValue cw 32) (operandValue cw 16) tm.2)) ∧
        (opcodeNumber cw = 5 → (operandValue cw 16 ≠ 0 ∨ operandValue cw 0 ≠ 0) →
          decode cw = .error .operand) ∧
        (opcodeNumber cw = 5 → operandValue cw 16 = 0 → operandValue cw 0 = 0 →
          decode cw = .ok (.sdraw (operandValue cw 48) (operandValue cw 32) tm.2))))

/-- The six worked words of R72 decode to the commands beside them. -/
def Obligations.WorkedWordsDecode : Prop :=
  decode 0x1001000300030002000C#80 = .ok (.vline 3 3 2 12 .fill) ∧
  decode 0x1002FFFB0002FFFD0001#80 = .ok (.vline (-5) 2 (-3) 1 .outline) ∧
  decode 0x200100090046004B0000#80 = .ok (.hline 9 70 75 .fill) ∧
  decode 0x3000000000470028FFFF#80 = .ok (.sreset 0 71 40 (-1)) ∧
  decode 0x4000000C000A000E0000#80 = .ok (.swrite 12 10 14) ∧
  decode 0x5004000A000E00000000#80 = .ok (.sdraw 10 14 .bgOutline)

/-! ## The bit-packer (20_memory.md R41, R42; 40_span_blitters.md R81, R82) -/

/-- Pixel places and (byte, bit) places of the framebuffer correspond one to one: pixel `(x, y)` lies at byte
`(y/8)*72+x`, bit `y%8`, and nowhere else (R41, R42, R46). -/
def Obligations.PixelPlacesAreOneToOne : Prop :=
  (∀ x y : Nat, x < 72 → y < 40 → fbAddr x y = y / 8 * 72 + x ∧ fbAddr x y < 360 ∧ fbBit y = y % 8) ∧
  (∀ a i : Nat, a < 360 → i < 8 →
    ∃ x y, (x < 72 ∧ y < 40 ∧ fbAddr x y = a ∧ fbBit y = i) ∧
      ∀ x' y', x' < 72 → y' < 40 → fbAddr x' y' = a → fbBit y' = i → x' = x ∧ y' = y)

/-- The column mask of a page holds exactly the rows of the span that lie in the page, and a page strictly
between the first and the last has mask 0xFF (R82). -/
def Obligations.ColumnMaskHoldsTheSpansRows : Prop :=
  ∀ p ya yb : Nat, ya ≤ yb → yb ≤ 39 → ya / 8 ≤ p → p ≤ yb / 8 →
    (∀ i : Nat, i < 8 → (colMask p ya yb).getLsbD i = decide (ya ≤ 8 * p + i ∧ 8 * p + i ≤ yb)) ∧
    (ya / 8 < p → p < yb / 8 → colMask p ya yb = 0xFF#8)

/-- One byte operation: each lane its mask selects gets the result of set, clear or toggle, each other lane
and each other byte keeps its value, and a zero mask changes nothing (R80, R81, R90). -/
def Obligations.ByteOperationActsLaneByLane : Prop :=
  ∀ (m : Memory) (op : BitOp) (addr : Nat) (mask : Byte), MemWf m → addr < 360 →
    (∀ a i : Nat, i < 8 → (memRead (byteOpRun m ⟨op, addr, mask⟩) a).getLsbD i =
      if a = addr ∧ mask.getLsbD i = true then
        (match op with
          | .set => true
          | .clr => false
          | .tgl => !(memRead m a).getLsbD i)
      else (memRead m a).getLsbD i) ∧
    (mask = 0 → byteOpRun m ⟨op, addr, mask⟩ = m)

/-! ## VLINE and HLINE (40_span_blitters.md) -/

/-- `VLINE` answers a next state in which every on-screen pixel of the clipped rectangle has the value of the
table of R84 (the boundary rows are the span's rows equal to an operand as given), every other pixel and
every byte without a pixel of the rectangle is unchanged, and so is everything but the framebuffer; and its
word is the one R84 gives. -/
def Obligations.VlineDrawsTheClippedRectangle : Prop :=
  ∀ (x1 x2 y1 y2 : Int) (mode : DrawMode) (s : State), MemWf s.fb →
    (∃ t, exec (.vline x1 x2 y1 y2 mode) s = .next t ∧
      PixelsBecome (fun x y p =>
        if max x1 0 ≤ (x : Int) ∧ (x : Int) ≤ min x2 71 ∧ max y1 0 ≤ (y : Int) ∧ (y : Int) ≤ min y2 39 then
          (match mode with
            | .fill => true
            | .outline => !decide ((y : Int) = y1 ∨ (y : Int) = y2)
            | .bgFill => false
            | .bgOutline => decide ((y : Int) = y1 ∨ (y : Int) = y2)
            | .xor => !p)
        else p) s t ∧
      BytesOutside (inRect x1 x2 y1 y2) s t ∧ OnlyFramebuffer s t) ∧
    (Instr.WellFormed (.vline x1 x2 y1 y2 mode) → ∀ tm ∈ tagTable, tm.2 = mode →
      decode (wordOf 1 tm.1 x1 x2 y1 y2) = .ok (.vline x1 x2 y1 y2 mode))

/-- `VLINE` performed byte by byte (R85) leaves the framebuffer that the pixel-by-pixel pseudocode of R84
leaves, for every input. -/
def Obligations.VlineByteFormRefinesPixelForm : Prop :=
  ∀ (x1 x2 y1 y2 : Int) (mode : DrawMode) (s : State), MemWf s.fb →
    exec (.vline x1 x2 y1 y2 mode) s =
      .next { s with fb := byteOpsRun s.fb (vlinePixelOps x1 x2 y1 y2 mode) }

/-- A `VLINE` over several columns equals the one-column `VLINE`s of its columns, in any order
(R88 item 6). -/
def Obligations.VlineIsItsColumnsInAnyOrder : Prop :=
  ∀ (x1 x2 y1 y2 : Int) (mode : DrawMode) (s : State) (xs : List Nat), MemWf s.fb →
    xs.Perm (columns x1 x2) →
    exec (.vline x1 x2 y1 y2 mode) s =
      execAll (xs.map fun x => Instr.vline x x y1 y2 mode) s

/-- `HLINE` answers a next state in which every on-screen pixel of the clipped row has the value R86 gives
(the end pixels are the columns of the span equal to an operand as given), every other pixel and byte is
unchanged, and so is everything but the framebuffer; and its word is the one R86 gives. -/
def Obligations.HlineDrawsTheClippedRow : Prop :=
  ∀ (y0 x1 x2 : Int) (mode : DrawMode) (s : State), MemWf s.fb →
    (∃ t, exec (.hline y0 x1 x2 mode) s = .next t ∧
      PixelsBecome (fun x y p =>
        if (y : Int) = y0 ∧ max x1 0 ≤ (x : Int) ∧ (x : Int) ≤ min x2 71 then
          (match mode with
            | .fill => true
            | .outline => !decide ((x : Int) = x1 ∨ (x : Int) = x2)
            | .bgFill => false
            | .bgOutline => decide ((x : Int) = x1 ∨ (x : Int) = x2)
            | .xor => !p)
        else p) s t ∧
      BytesOutside (fun x y => decide ((y : Int) = y0) && inClipped x1 x2 71 x) s t ∧
      OnlyFramebuffer s t) ∧
    (Instr.WellFormed (.hline y0 x1 x2 mode) → ∀ tm ∈ tagTable, tm.2 = mode →
      decode (wordOf 2 tm.1 y0 x1 x2 0) = .ok (.hline y0 x1 x2 mode))

/-- A `VLINE` or `HLINE` whose range is empty or wholly off screen leaves the whole state as it is
(R88 item 1, R83). -/
def Obligations.EmptySpansChangeNothing : Prop :=
  (∀ (x1 x2 y1 y2 : Int) (mode : DrawMode) (s : State),
    (x2 < x1 ∨ y2 < y1 ∨ x2 < 0 ∨ 71 < x1 ∨ y2 < 0 ∨ 39 < y1) →
      exec (.vline x1 x2 y1 y2 mode) s = .next s) ∧
  (∀ (y x1 x2 : Int) (mode : DrawMode) (s : State),
    (y < 0 ∨ 39 < y ∨ x2 < x1 ∨ x2 < 0 ∨ 71 < x1) → exec (.hline y x1 x2 mode) s = .next s)

/-! ## Every drawing command -/

/-- A drawing command in `xor` mode, applied twice, restores the state (R88 item 2, R120 item 2). -/
def Obligations.XorTwiceRestoresTheState : Prop :=
  ∀ (i : Instr) (s : State), Draws .xor i → MemWf s.fb →
    ∃ t, exec i s = .next t ∧ exec i t = .next s

/-- A drawing command in any other mode, applied twice, leaves what applying it once leaves
(R88 item 3, R120 item 4). -/
def Obligations.OtherModesAreIdempotent : Prop :=
  ∀ (mode : DrawMode) (i : Instr) (s : State), Draws mode i → mode ≠ .xor → MemWf s.fb →
    ∃ t, exec i s = .next t ∧ exec i t = .next t

/-- In any mode but `xor` the pixels a drawing command may change do not depend on the framebuffer it starts
from: two states with the same boundary registers end with the same pixels there (R84, R120 item 4). -/
def Obligations.OtherModesIgnoreThePriorPicture : Prop :=
  ∀ (mode : DrawMode) (i : Instr) (s s' : State), Draws mode i → mode ≠ .xor → MemWf s.fb → MemWf s'.fb →
    SameBoundary s s' →
    ∃ t t', exec i s = .next t ∧ exec i s' = .next t' ∧
      ∀ x y : Nat, x < 72 → y < 40 → commandReaches s i x y = true → pixelOf t.fb x y = pixelOf t'.fb x y

/-- No command changes a pixel outside its reach (the clipped rectangle, the clipped row, the own spans of
the drawn columns; nothing for the boundary commands), nor a byte without a pixel of its reach, nor anything
outside 0..359 (R88 item 4, R120 item 1, R46). -/
def Obligations.CommandsStayInTheirReach : Prop :=
  ∀ (i : Instr) (s : State), MemWf s.fb →
    ∃ t, exec i s = .next t ∧
      (∀ x y : Nat, x < 72 → y < 40 → commandReaches s i x y = false → pixelOf t.fb x y = pixelOf s.fb x y) ∧
      BytesOutside (commandReaches s i) s t ∧
      (∀ a : Nat, 360 ≤ a → memRead t.fb a = memRead s.fb a)

/-- No command faults or is refused, and none writes a control register or touches the host's side: no flag
is a side effect of drawing (R29, R160, R88 item 5). -/
def Obligations.CommandsCompleteAndWriteNoFlag : Prop :=
  ∀ (i : Instr) (s : State), ∃ t, exec i s = .next t ∧ SameControl s t ∧ SameHost s t

/-- The most byte operations each command makes (R191; counts, not times). -/
def Obligations.ByteOperationCounts : Prop :=
  (∀ (x1 x2 y1 y2 : Int) (mode : DrawMode), (vlineOps x1 x2 y1 y2 mode).length ≤ 504) ∧
  (∀ (y x1 x2 : Int) (mode : DrawMode), (hlineOps y x1 x2 mode).length ≤ 74) ∧
  (∀ (s : State) (x1 x2 : Int) (mode : DrawMode), (sdrawOps s x1 x2 mode).length ≤ 1224)

/-! ## SRESET and SWRITE (41_shape_boundary.md) -/

/-- `SRESET` answers a next state in which the pairs of columns `max(x1,0)..min(x2,71)` hold the two values
and every other pair, the framebuffer and all else are unchanged; and its word is the one R100 gives. -/
def Obligations.SresetFillsTheClippedRange : Prop :=
  ∀ (x1 x2 upper lower : Int) (s : State), Instr.WellFormed (.sreset x1 x2 upper lower) →
    (∃ t, exec (.sreset x1 x2 upper lower) s = .next t ∧
      (∀ x : Nat, x < 72 →
        if max x1 0 ≤ (x : Int) ∧ (x : Int) ≤ min x2 71 then upperVal t x = upper ∧ lowerVal t x = lower
        else upperVal t x = upperVal s x ∧ lowerVal t x = lowerVal s x) ∧
      OnlyBoundary s t) ∧
    decode (wordOf 3 0 x1 x2 upper lower) = .ok (.sreset x1 x2 upper lower)

/-- `SWRITE` answers a next state in which the pair of column `x` holds the two values, if `x` is in 0..71,
and every other pair, the framebuffer and all else are unchanged; outside 0..71 the whole state is unchanged;
and its word is the one R101 gives. -/
def Obligations.SwriteWritesOnePair : Prop :=
  ∀ (x upper lower : Int) (s : State), Instr.WellFormed (.swrite x upper lower) →
    (0 ≤ x ∧ x ≤ 71 → ∃ t, exec (.swrite x upper lower) s = .next t ∧
      (∀ n : Nat, n < 72 →
        if (n : Int) = x then upperVal t n = upper ∧ lowerVal t n = lower
        else upperVal t n = upperVal s n ∧ lowerVal t n = lowerVal s n) ∧
      OnlyBoundary s t) ∧
    (¬(0 ≤ x ∧ x ≤ 71) → exec (.swrite x upper lower) s = .next s) ∧
    decode (wordOf 4 0 x upper lower 0) = .ok (.swrite x upper lower)

/-! ## SDRAW (42_shape_draw.md) -/

/-- `SDRAW` answers a next state in which the rows `UPPER[x]..LOWER[x]` of every drawn column have the value
of the draw mode, in an outline mode border or interior as R113 and R114 say (the whole span of an edge
column; elsewhere the span's end rows and every row beside an empty neighbour or outside a neighbour's span),
and everything else is unchanged; and its word is the one R114 gives. -/
def Obligations.SdrawDrawsTheReconstructedShape : Prop :=
  ∀ (x1 x2 : Int) (mode : DrawMode) (s : State), MemWf s.fb →
    (∃ t, exec (.sdraw x1 x2 mode) s = .next t ∧
      PixelsBecome (fun x y p =>
        if max x1 0 ≤ (x : Int) ∧ (x : Int) ≤ min x2 71 ∧ upperVal s x ≤ (y : Int) ∧ (y : Int) ≤ lowerVal s x
        then
          let border := decide ((x : Int) = x1 ∨ (x : Int) = x2 ∨ (y : Int) = upperVal s x ∨
            (y : Int) = lowerVal s x ∨
            ∃ n ∈ List.range 72, (n + 1 = x ∨ n = x + 1) ∧
              (lowerVal s n < upperVal s n ∨ (y : Int) < upperVal s n ∨ lowerVal s n < (y : Int)))
          (match mode with
            | .fill => true
            | .outline => !border
            | .bgFill => false
            | .bgOutline => border
            | .xor => !p)
        else p) s t ∧
      BytesOutside (inShape s x1 x2) s t ∧ OnlyFramebuffer s t) ∧
    (Instr.WellFormed (.sdraw x1 x2 mode) → ∀ tm ∈ tagTable, tm.2 = mode →
      decode (wordOf 5 tm.1 x1 x2 0 0) = .ok (.sdraw x1 x2 mode))

/-- `SDRAW` leaves the framebuffer that the column loop of R114 over the pixel-level `VLINE` of R84
leaves. -/
def Obligations.SdrawRefinesItsPixelLoop : Prop :=
  ∀ (x1 x2 : Int) (mode : DrawMode) (s : State), MemWf s.fb →
    exec (.sdraw x1 x2 mode) s = .next { s with fb := byteOpsRun s.fb (sdrawPixelOps s x1 x2 mode) }

/-- The final framebuffer of an `SDRAW` does not depend on the order in which its columns are drawn
(R114, D22). -/
def Obligations.SdrawColumnOrderDoesNotMatter : Prop :=
  ∀ (x1 x2 : Int) (mode : DrawMode) (s : State) (xs : List Nat), MemWf s.fb → xs.Perm (columns x1 x2) →
    exec (.sdraw x1 x2 mode) s =
      .next { s with fb := byteOpsRun s.fb (xs.flatMap (columnOps s x1 x2 mode)) }

/-- A pixel of column `x` after an `SDRAW` depends on the boundary registers of columns `x − 1`, `x`, `x + 1`
inside 0..71 only, so nothing to the left of column 0 or to the right of column 71 can make a row border
(R115, R118). -/
def Obligations.SdrawLooksOneColumnEitherSide : Prop :=
  ∀ (x1 x2 : Int) (mode : DrawMode) (s s' : State) (x y : Nat), MemWf s.fb → MemWf s'.fb → x < 72 → y < 40 →
    (∀ n : Nat, n < 72 → n ≤ x + 1 → x ≤ n + 1 → upperVal s n = upperVal s' n ∧ lowerVal s n = lowerVal s' n) →
    pixelOf s.fb x y = pixelOf s'.fb x y →
    ∃ t t', exec (.sdraw x1 x2 mode) s = .next t ∧ exec (.sdraw x1 x2 mode) s' = .next t' ∧
      pixelOf t.fb x y = pixelOf t'.fb x y

/-- An `SDRAW` all of whose drawn columns are empty leaves the whole state as it is, in every mode
(R114, R21). -/
def Obligations.EmptyShapeDrawsNothing : Prop :=
  ∀ (x1 x2 : Int) (mode : DrawMode) (s : State),
    (∀ x : Nat, x < 72 → x1 ≤ (x : Int) → (x : Int) ≤ x2 → lowerVal s x < upperVal s x) →
    exec (.sdraw x1 x2 mode) s = .next s

/-- `SDRAW x1, x2, fill` then `SDRAW x1, x2, bg_fill` leaves every pixel of the drawn spans 0 and every other
pixel unchanged, and restores the state exactly when those pixels were 0 before (R120 item 3). -/
def Obligations.FillThenBgFillClearsTheSpans : Prop :=
  ∀ (x1 x2 : Int) (s : State), MemWf s.fb →
    ∃ t, execAll [.sdraw x1 x2 .fill, .sdraw x1 x2 .bgFill] s = .next t ∧
      PixelsBecome (fun x y p => if inShape s x1 x2 x y = true then false else p) s t ∧
      (t = s ↔ ∀ x y : Nat, x < 72 → y < 40 → inShape s x1 x2 x y = true → pixelOf s.fb x y = false)

/-- `SDRAW` in `outline` and in `bg_outline` on the same registers writes the same pixels with complementary
values (R120 item 5). -/
def Obligations.OutlineModesAreComplementary : Prop :=
  ∀ (x1 x2 : Int) (s : State), MemWf s.fb →
    ∃ t t', exec (.sdraw x1 x2 .outline) s = .next t ∧ exec (.sdraw x1 x2 .bgOutline) s = .next t' ∧
      ∀ x y : Nat, x < 72 → y < 40 →
        if inShape s x1 x2 x y = true then pixelOf t.fb x y = !pixelOf t'.fb x y
        else pixelOf t.fb x y = pixelOf s.fb x y ∧ pixelOf t'.fb x y = pixelOf s.fb x y

/-! ## The command port and the command fault (60_exceptions.md) -/

/-- When the host presents a word that decodes to `i` and the block is not faulted, the step is `exec i` on
the state without the word (R48, R68, R164). -/
def Obligations.StepRunsTheDecodedCommand : Prop :=
  ∀ (s : State) (cw : CmdWord) (rest : List HostAction) (i : Instr),
    s.pending = .command cw :: rest → isFaulted s = false → decode cw = .ok i →
    step s = exec i { s with pending := rest }

/-- The step of a state with a table word as its next word runs the command the decoder reads from it; the
model's placing of the word is log 2 (R23, R48). -/
def Obligations.FetchWordIsTheNextCommand : Prop :=
  ∀ (s : State) (nbits w : Nat) (i : Instr), isFaulted s = false → decodeTableWord nbits w = some i →
    step (s.withFetchWord nbits w) = exec i s

/-- Fault entry (R163): an illegal word, with `ERR` = 0, sets `ERR`, records its code and its five halfwords,
and changes nothing else: no other bit of `STATUS`, no boundary register, no framebuffer byte. -/
def Obligations.IllegalWordTakesTheCommandFault : Prop :=
  ∀ (s : State) (cw : CmdWord) (rest : List HostAction) (e : CmdError),
    s.pending = .command cw :: rest → isFaulted s = false → decode cw = .error e →
    ∃ t, step s = .next t ∧ statusErr t.status = true ∧
      (statusErrCode t.status).toNat =
        (match e with
          | .opcode => 1
          | .reserved => 2
          | .mode => 3
          | .operand => 4) ∧
      t.errCmd = #v[cw.extractLsb' 64 16, cw.extractLsb' 48 16, cw.extractLsb' 32 16, cw.extractLsb' 16 16,
        cw.extractLsb' 0 16] ∧
      (∀ k : Nat, k < 16 → k ≠ 1 → (k < 4 ∨ 8 ≤ k) → t.status.getLsbD k = s.status.getLsbD k) ∧
      t.fb = s.fb ∧ SameBoundary s t ∧ t.pending = rest ∧ t.replies = s.replies ∧ t.freeIndex = s.freeIndex

/-- The faulted state (R164, R166): any word, legal or not, is discarded; only the host's list moves on. -/
def Obligations.FaultedBlockDiscardsEveryWord : Prop :=
  ∀ (s : State) (cw : CmdWord) (rest : List HostAction),
    s.pending = .command cw :: rest → isFaulted s = true → step s = .next { s with pending := rest }

/-- Fault return (R165, R25): writing `CTRL` with bit 0 set clears `ERR`, `ERRCODE` and `ERRCMD0..4` and
changes nothing else, so that nothing is presented again and the block is not faulted; when `ERR` was 0
already it changes nothing. -/
def Obligations.ErrclrLeavesTheFaultedState : Prop :=
  ∀ (s : State) (v : Half) (rest : List HostAction),
    s.pending = .regWrite 0x001 v :: rest → v.getLsbD 0 = true →
    ∃ t, step s = .next t ∧ isFaulted t = false ∧ statusErrCode t.status = 0 ∧
      (∀ k : Nat, (hk : k < 5) → t.errCmd[k] = 0) ∧
      (∀ k : Nat, k < 16 → k ≠ 1 → (k < 4 ∨ 8 ≤ k) → t.status.getLsbD k = s.status.getLsbD k) ∧
      t.fb = s.fb ∧ SameBoundary s t ∧ t.pending = rest ∧ t.replies = s.replies ∧
      t.freeIndex = s.freeIndex ∧ (StateInv s → isFaulted s = false → t = { s with pending := rest })

/-- A write of any other register number, or of `CTRL` with bit 0 clear, is ignored (R24, R25, R28). -/
def Obligations.OtherRegisterWritesAreIgnored : Prop :=
  ∀ (s : State) (n : RegNum) (v : Half) (rest : List HostAction),
    s.pending = .regWrite n v :: rest → (n ≠ 0x001 ∨ v.getLsbD 0 = false) →
    step s = .next { s with pending := rest }

/-- The register map (R28, R24, R25, R27, R102): what a read of each number returns; a read changes nothing
but the host's own side. -/
def Obligations.RegisterPortReadsTheMap : Prop :=
  ∀ (s : State) (n : RegNum) (rest : List HostAction), s.pending = .regRead n :: rest →
    ∃ v : Half, step s = .next { s with pending := rest, replies := s.replies ++ [.register n v] } ∧
      (n.toNat = 0x000 → ∀ k : Nat, k < 16 →
        v.getLsbD k = (decide (k = 0 ∨ k = 1 ∨ (4 ≤ k ∧ k < 8)) && s.status.getLsbD k)) ∧
      (n.toNat = 0x001 → v = 0) ∧
      (∀ k : Nat, (hk : k < 5) → n.toNat = 0x002 + k → v = s.errCmd[k]) ∧
      (0x007 ≤ n.toNat → n.toNat ≤ 0x0FF → v = 0) ∧
      (∀ x : Nat, (hx : x < 72) → n.toNat = 0x100 + x → v = s.upper[x]) ∧
      (0x148 ≤ n.toNat → n.toNat ≤ 0x17F → v = 0) ∧
      (∀ x : Nat, (hx : x < 72) → n.toNat = 0x180 + x → v = s.lower[x]) ∧
      (0x1C8 ≤ n.toNat → n.toNat ≤ 0x1FF → v = 0)

/-! ## The host and the framebuffer (20_memory.md R51) -/

/-- A byte the host writes between commands reads back, every other byte and everything else is unchanged,
and a host read changes nothing and returns the byte (R46, R47, R51). -/
def Obligations.HostFramebufferAccess : Prop :=
  ∀ (s : State) (a : Nat) (v : Byte) (rest : List HostAction), MemWf s.fb → statusBusy s.status = false →
    a < 360 →
    (s.pending = .fbWrite a v :: rest →
      ∃ t, step s = .next t ∧ memRead t.fb a = v ∧ (∀ b, b ≠ a → memRead t.fb b = memRead s.fb b) ∧
        MemWf t.fb ∧ SameBoundary s t ∧ SameControl s t ∧ t.pending = rest ∧ t.replies = s.replies ∧
        t.freeIndex = s.freeIndex) ∧
    (s.pending = .fbRead a :: rest →
      step s = .next { s with pending := rest, replies := s.replies ++ [.framebuffer a (memRead s.fb a)] })

/-- The model's choice (logs 8 and 9): a host access to an address the framebuffer does not have faults, and
one while `BUSY` = 1 is refused, each by its name (R46, R186). -/
def Obligations.HostAccessStopsByName : Prop :=
  ∀ (s : State) (a : Nat) (v : Byte) (rest : List HostAction),
    (s.pending = .fbWrite a v :: rest ∨ s.pending = .fbRead a :: rest) →
    (statusBusy s.status = true → step s = .refused .framebufferInUse) ∧
    (statusBusy s.status = false → 360 ≤ a → step s = .fault (.noSuchAddress a))

/-! ## Reset (70_reset_and_hazards.md) -/

/-- Reset puts every `UPPER[x]` to 40, every `LOWER[x]` to −1, `STATUS` and `ERRCMD0..4` to 0, and does not
touch the framebuffer (R180, R31). -/
def Obligations.ResetInputResetsTheBlock : Prop :=
  ∀ (s : State) (rest : List HostAction), s.pending = .reset :: rest →
    ∃ t, step s = .next t ∧ (∀ x : Nat, x < 72 → upperVal t x = 40 ∧ lowerVal t x = -1) ∧ t.status = 0 ∧
      (∀ k : Nat, (hk : k < 5) → t.errCmd[k] = 0) ∧ t.fb = s.fb ∧ t.pending = rest ∧ t.replies = s.replies ∧
      t.freeIndex = s.freeIndex

/-- The state after reset holds the values of R31: every column empty, `STATUS` and `ERRCMD0..4` 0. -/
def Obligations.ResetStateHoldsTheResetValues : Prop :=
  (∀ x : Nat, x < 72 → upperVal State.reset x = 40 ∧ lowerVal State.reset x = -1 ∧
    columnEmpty State.reset x = true) ∧
  State.reset.status = 0 ∧ (∀ k : Nat, (hk : k < 5) → State.reset.errCmd[k] = 0)

/-- A reset that abandons a command resets the block's registers and leaves every framebuffer pixel and byte
outside the command's reach as it was, whatever the free values are; a word that does not execute (illegal,
or discarded) reaches nothing (R181). -/
def Obligations.AbandonedCommandStaysInItsReach : Prop :=
  ∀ (s : State) (cw : CmdWord) (rest : List HostAction), MemWf s.fb → s.pending = .resetDuring cw :: rest →
    ∃ t, step s = .next t ∧ (∀ x : Nat, x < 72 → upperVal t x = 40 ∧ lowerVal t x = -1) ∧ t.status = 0 ∧
      (∀ k : Nat, (hk : k < 5) → t.errCmd[k] = 0) ∧ MemWf t.fb ∧ t.pending = rest ∧ t.replies = s.replies ∧
      (∀ i, isFaulted s = false → decode cw = .ok i →
        (∀ x y : Nat, x < 72 → y < 40 → commandReaches s i x y = false → pixelOf t.fb x y = pixelOf s.fb x y) ∧
        BytesOutside (commandReaches s i) s t) ∧
      ((isFaulted s = true ∨ ∃ e, decode cw = .error e) → t.fb = s.fb)

/-! ## Rules of the whole machine -/

/-- The invariant (canonical framebuffer inside 0..359, quiet `STATUS`, true fault record) holds after
reset. -/
def Obligations.InvariantHoldsAtReset : Prop := StateInv State.reset

/-- Every step keeps the invariant: framebuffer addresses stay inside 0..359 (R46), `BUSY` and the reserved
bits of `STATUS` read 0 (R24), `ERRCODE` is 0 and `ERRCMD0..4` are 0 unless faulted (R24, R27), and while
faulted `ERRCMD0..4` hold a word the decoder rejects with the recorded code (R161, R164). -/
def Obligations.StepKeepsTheInvariant : Prop :=
  ∀ s t : State, StateInv s → step s = .next t → StateInv t

/-- `STATUS.ERR` is set only by an illegal command word (R29, R160). -/
def Obligations.OnlyAnIllegalWordSetsErr : Prop :=
  ∀ s t : State, step s = .next t → isFaulted s = false → isFaulted t = true →
    ∃ cw rest e, s.pending = .command cw :: rest ∧ decode cw = .error e ∧
      statusErrCode t.status = e.code

/-- `STATUS.ERR` is cleared only by `CTRL.ERRCLR` and by reset (R24, R164). -/
def Obligations.OnlyErrclrAndResetClearErr : Prop :=
  ∀ s t : State, step s = .next t → isFaulted s = true → isFaulted t = false →
    ∃ a rest, s.pending = a :: rest ∧
      ((∃ v : Half, a = .regWrite 0x001 v ∧ v.getLsbD 0 = true) ∨ a = .reset ∨ ∃ cw, a = .resetDuring cw)

/-- Boundary registers keep their value until `SRESET`, `SWRITE` or reset writes them (R20, R22). -/
def Obligations.OnlyBoundaryCommandsAndResetWriteBoundaries : Prop :=
  ∀ s t : State, step s = .next t → ¬SameBoundary s t →
    ∃ a rest, s.pending = a :: rest ∧
      (a = .reset ∨ (∃ cw, a = .resetDuring cw) ∨
        ∃ cw, a = .command cw ∧ isFaulted s = false ∧
          ((∃ x1 x2 u l, decode cw = .ok (.sreset x1 x2 u l)) ∨ ∃ x u l, decode cw = .ok (.swrite x u l)))

/-- The framebuffer changes only by a drawing command, a host write, or a reset that abandons a command;
reset alone, reads, register writes and faults leave it (R26, R163, R180). -/
def Obligations.OnlyDrawsAndTheHostChangeTheFramebuffer : Prop :=
  ∀ s t : State, step s = .next t → t.fb ≠ s.fb →
    ∃ a rest, s.pending = a :: rest ∧
      ((∃ n v, a = .fbWrite n v) ∨ (∃ cw, a = .resetDuring cw) ∨
        ∃ cw mode i, a = .command cw ∧ isFaulted s = false ∧ decode cw = .ok i ∧ Draws mode i)

/-- With nothing presented the block is idle; the model's choice, log 5 (R180, R192). -/
def Obligations.IdleBlockStays : Prop := ∀ s : State, s.pending = [] → step s = .next s

/-- A list of legal commands, presented to a block that is idle and not faulted, runs to its end, one command
a step, as the left fold of the commands, and ends well (R14, R48, R192). -/
def Obligations.LegalProgramsRunToTheirEnd : Prop :=
  ∀ (is : List Instr) (s : State), (∀ i ∈ is, i.WellFormed) → isFaulted s = false →
    statusBusy s.status = false → s.pending = is.map (fun i => HostAction.command (encode i)) →
    ∃ t, core.run is.length s = .next t ∧ execAll is { s with pending := [] } = .next t ∧ EndedWell t

/-- After an illegal word every later word of the list is discarded: the run ends faulted, with the record of
the first illegal word and the picture and registers of the moment before it (R163, R164, R166, R192). -/
def Obligations.IllegalWordEndsThePicture : Prop :=
  ∀ (s : State) (cw : CmdWord) (e : CmdError) (words : List CmdWord), isFaulted s = false →
    decode cw = .error e → s.pending = .command cw :: words.map HostAction.command →
    ∃ t, core.run (words.length + 1) s = .next t ∧ EndedFaulted t ∧ statusErrCode t.status = e.code ∧
      errCmdWord t = cw ∧ t.fb = s.fb ∧ SameBoundary s t

/-! ## The assembler (30_encoding.md R70; 43_pseudo_commands.md) -/

/-- The assembler never emits an illegal word (R70), pseudo-commands included (R71). -/
def Obligations.AssembledWordsAreLegal : Prop :=
  ∀ (line : List Char) (words : List CmdWord), assembleWords line = some words →
    ∃ is, assembleLine line = some is ∧ words.map decode = is.map Except.ok

/-- `PIXEL x, y, mode` changes the one pixel `(x, y)`, and nothing when it is off screen: set by `fill` and
`bg_outline`, cleared by `bg_fill` and `outline`, toggled by `xor` (R131). -/
def Obligations.PixelDrawsOnePixel : Prop :=
  ∀ (x0 y0 : Int) (mode : DrawMode) (s : State), MemWf s.fb →
    ∃ t, execAll (expandPixel x0 y0 mode) s = .next t ∧
      PixelsBecome (fun x y p =>
        if (x : Int) = x0 ∧ (y : Int) = y0 then
          (match mode with
            | .fill => true
            | .outline => false
            | .bgFill => false
            | .bgOutline => true
            | .xor => !p)
        else p) s t ∧ OnlyFramebuffer s t

/-- `RECT_OUTLINE` in `xor` mode toggles every on-screen pixel of the rectangle's perimeter exactly once and
no other, for every width and height from 1 (R133). -/
def Obligations.RectOutlineXorTogglesThePerimeterOnce : Prop :=
  ∀ (x1 y1 x2 y2 : Int) (s : State), x1 ≤ x2 → y1 ≤ y2 → MemWf s.fb →
    ∃ t, execAll (expandRectOutline x1 y1 x2 y2 .xor) s = .next t ∧
      PixelsBecome (fun x y p =>
        if x1 ≤ (x : Int) ∧ (x : Int) ≤ x2 ∧ y1 ≤ (y : Int) ∧ (y : Int) ≤ y2 ∧
          ((x : Int) = x1 ∨ (x : Int) = x2 ∨ (y : Int) = y1 ∨ (y : Int) = y2)
        then !p else p) s t ∧ OnlyFramebuffer s t

/-- `RECT` in `outline` sets the interior of the rectangle and clears its one-pixel perimeter, in
`bg_outline` the other way round, and the two pictures are complementary on the whole rectangle, corners
included; the other modes fill it; nothing outside changes (R132, C5). -/
def Obligations.RectDrawsInteriorAndPerimeter : Prop :=
  ∀ (x1 y1 x2 y2 : Int) (mode : DrawMode) (s : State), x1 ≤ x2 → y1 ≤ y2 → MemWf s.fb →
    ∃ t, execAll (expandRect x1 y1 x2 y2 mode) s = .next t ∧
      PixelsBecome (fun x y p =>
        if x1 ≤ (x : Int) ∧ (x : Int) ≤ x2 ∧ y1 ≤ (y : Int) ∧ (y : Int) ≤ y2 then
          let border := decide ((x : Int) = x1 ∨ (x : Int) = x2 ∨ (y : Int) = y1 ∨ (y : Int) = y2)
          (match mode with
            | .fill => true
            | .outline => !border
            | .bgFill => false
            | .bgOutline => border
            | .xor => !p)
        else p) s t ∧ OnlyFramebuffer s t

/-- `SRESET` with no operands makes every column empty, so that an `SDRAW` after it draws nothing
(R134). -/
def Obligations.DefaultSresetEmptiesEveryColumn : Prop :=
  ∀ (s : State) (x1 x2 : Int) (mode : DrawMode),
    ∃ t, execAll expandSresetAll s = .next t ∧ (∀ x : Nat, x < 72 → upperVal t x = 40 ∧ lowerVal t x = -1) ∧
      OnlyBoundary s t ∧ exec (.sdraw x1 x2 mode) t = .next t
end

