-- ==== Sys2Proof/Laws/Encoding.lean ====
section
/-! SUPPORT. The fields of a word put together from its parts, and the two readings of a halfword
(30_encoding.md R60 to R62). -/

namespace Sys2Proof

@[simp] theorem halfH0_word (h a b c d : Half) : halfH0 (wordOfHalves h a b c d) = h := by
  apply BitVec.eq_of_getLsbD_eq; intro i hi
  simp only [halfH0, wordOfHalves, BitVec.getLsbD_extractLsb', BitVec.getLsbD_append]
  interval_cases i <;> simp

@[simp] theorem halfA_word (h a b c d : Half) : halfA (wordOfHalves h a b c d) = a := by
  apply BitVec.eq_of_getLsbD_eq; intro i hi
  simp only [halfA, wordOfHalves, BitVec.getLsbD_extractLsb', BitVec.getLsbD_append]
  interval_cases i <;> simp

@[simp] theorem halfB_word (h a b c d : Half) : halfB (wordOfHalves h a b c d) = b := by
  apply BitVec.eq_of_getLsbD_eq; intro i hi
  simp only [halfB, wordOfHalves, BitVec.getLsbD_extractLsb', BitVec.getLsbD_append]
  interval_cases i <;> simp

@[simp] theorem halfC_word (h a b c d : Half) : halfC (wordOfHalves h a b c d) = c := by
  apply BitVec.eq_of_getLsbD_eq; intro i hi
  simp only [halfC, wordOfHalves, BitVec.getLsbD_extractLsb', BitVec.getLsbD_append]
  interval_cases i <;> simp

@[simp] theorem halfD_word (h a b c d : Half) : halfD (wordOfHalves h a b c d) = d := by
  apply BitVec.eq_of_getLsbD_eq; intro i hi
  simp only [halfD, wordOfHalves, BitVec.getLsbD_extractLsb', BitVec.getLsbD_append]
  interval_cases i <;> simp

@[simp] theorem opcodeField_word (op : BitVec 4) (m : BitVec 3) (a b c d : Half) :
    opcodeField (wordOfHalves (controlHalf op m) a b c d) = op := by
  apply BitVec.eq_of_getLsbD_eq; intro i hi
  simp only [opcodeField, wordOfHalves, controlHalf, BitVec.getLsbD_extractLsb', BitVec.getLsbD_append]
  interval_cases i <;> simp

@[simp] theorem rsvField_word (op : BitVec 4) (m : BitVec 3) (a b c d : Half) :
    rsvField (wordOfHalves (controlHalf op m) a b c d) = 0 := by
  apply BitVec.eq_of_getLsbD_eq; intro i hi
  simp only [rsvField, wordOfHalves, controlHalf, BitVec.getLsbD_extractLsb', BitVec.getLsbD_append]
  interval_cases i <;> simp

@[simp] theorem modeField_word (op : BitVec 4) (m : BitVec 3) (a b c d : Half) :
    modeField (wordOfHalves (controlHalf op m) a b c d) = m := by
  apply BitVec.eq_of_getLsbD_eq; intro i hi
  simp only [modeField, wordOfHalves, controlHalf, BitVec.getLsbD_extractLsb', BitVec.getLsbD_append]
  interval_cases i <;> simp

/-- A word is the concatenation of its five halfwords (30_encoding.md R60). -/
theorem word_of_halves (cw : CmdWord) :
    wordOfHalves (halfH0 cw) (halfA cw) (halfB cw) (halfC cw) (halfD cw) = cw := by
  apply BitVec.eq_of_getLsbD_eq; intro i hi
  simp only [halfH0, halfA, halfB, halfC, halfD, wordOfHalves, BitVec.getLsbD_extractLsb',
    BitVec.getLsbD_append]
  interval_cases i <;> simp

@[simp] theorem drawModeOfTag_tag (m : DrawMode) : drawModeOfTag m.tag = some m := by
  cases m <;> rfl

theorem tag_of_drawModeOfTag {t : BitVec 3} {m : DrawMode} (h : drawModeOfTag t = some m) : m.tag = t := by
  revert t m; decide

theorem inRange16_iff {v : Int} : inRange16 v = true ↔ -32768 ≤ v ∧ v ≤ 32767 := by
  simp [inRange16]

/-- A 16-bit value is read back from its two's complement form (00_scope.md R8, R9). -/
theorem sext16_half16 {v : Int} (h : inRange16 v = true) : sext16 (half16 v) = v := by
  rw [inRange16_iff] at h
  simp only [sext16, half16, BitVec.toInt_ofInt]
  rw [Int.bmod_eq_of_le] <;> omega

@[simp] theorem half16_sext16 (h : Half) : half16 (sext16 h) = h := by
  simp [sext16, half16]

theorem inRange16_sext16 (h : Half) : inRange16 (sext16 h) = true := by
  rw [inRange16_iff]
  have h1 := BitVec.le_toInt h
  have h2 := BitVec.toInt_lt (x := h)
  simp only [sext16]
  omega

end Sys2Proof
end

