-- ==== Sys2Proof/Laws/Memory.lean ====
section
/-! SUPPORT. The laws of the framebuffer: read after write, the canonical form kept by every operation, and
that two framebuffers in canonical form with equal bytes are equal. -/

namespace Sys2Proof.Machine

/-! ## The canonical form -/

theorem memWfFrom_cons {lo k : Nat} {b : Byte} {rest : Memory} :
    memWfFrom lo ((k, b) :: rest) = true ↔
      lo ≤ k ∧ k < Config.fbBytes ∧ b ≠ memUnlisted ∧ memWfFrom (k + 1) rest = true := by
  simp [memWfFrom, and_assoc]

/-- The canonical form from an address on is the canonical form from any smaller one. -/
theorem memWfFrom_mono {lo lo' : Nat} {m : Memory} (h : lo' ≤ lo) (hm : memWfFrom lo m = true) :
    memWfFrom lo' m = true := by
  cases m with
  | nil => rfl
  | cons c rest =>
    obtain ⟨k, b⟩ := c
    rw [memWfFrom_cons] at hm ⊢
    exact ⟨h.trans hm.1, hm.2⟩

/-- Below its first address a framebuffer in canonical form reads as unlisted. -/
theorem memRead_below {lo : Nat} {m : Memory} (hm : memWfFrom lo m = true) {a : Nat} (h : a < lo) :
    memRead m a = memUnlisted := by
  induction m generalizing lo with
  | nil => rfl
  | cons c rest ih =>
    obtain ⟨k, b⟩ := c
    rw [memWfFrom_cons] at hm
    have hk : k ≠ a := by omega
    simpa [memRead, hk] using ih hm.2.2.2 (by omega)

/-- Outside 0..359 a framebuffer in canonical form reads as unlisted. -/
theorem memRead_outside {lo : Nat} {m : Memory} (hm : memWfFrom lo m = true) {a : Nat}
    (h : Config.fbBytes ≤ a) : memRead m a = memUnlisted := by
  induction m generalizing lo with
  | nil => rfl
  | cons c rest ih =>
    obtain ⟨k, b⟩ := c
    rw [memWfFrom_cons] at hm
    have hk : k ≠ a := by omega
    simpa [memRead, hk] using ih hm.2.2.2

/-! ## Read after write -/

/-- A write leaves every other address alone. -/
theorem memRead_memWrite_other {m : Memory} {a a' : Nat} (v : Byte) (h : a' ≠ a) :
    memRead (memWrite m a v) a' = memRead m a' := by
  induction m with
  | nil =>
    by_cases hv : v = memUnlisted
    · simp [memWrite, hv]
    · simp [memWrite, hv, memRead, h.symm]
  | cons c rest ih =>
    obtain ⟨k, b⟩ := c
    simp only [memWrite]
    split
    · split
      · rfl
      · simp [memRead, h.symm]
    · split
      · next hk =>
        subst hk
        split <;> simp [memRead, h.symm]
      · simp only [memRead, ih]

theorem memRead_memWrite_same_from {lo : Nat} {m : Memory} (hm : memWfFrom lo m = true) (a : Nat) (v : Byte) :
    memRead (memWrite m a v) a = v := by
  induction m generalizing lo with
  | nil =>
    by_cases hv : v = memUnlisted
    · simp [memWrite, hv, memRead]
    · simp [memWrite, hv, memRead]
  | cons c rest ih =>
    obtain ⟨k, b⟩ := c
    rw [memWfFrom_cons] at hm
    obtain ⟨hlo, hk, hb, hr⟩ := hm
    simp only [memWrite]
    split
    · next hak =>
      split
      · next hv =>
        have hne : k ≠ a := by omega
        simp only [memRead, hne, if_false, hv]
        exact memRead_below hr (by omega)
      · simp [memRead]
    · split
      · next hak =>
        subst hak
        split
        · next hv => rw [hv]; exact memRead_below hr (by omega)
        · simp [memRead]
      · next h2 =>
        have hne : k ≠ a := fun h => h2 h.symm
        simp only [memRead, hne, if_false]
        exact ih hr

/-- A read after a write to the same address gives the value written. -/
theorem memRead_memWrite_same {m : Memory} (hm : MemWf m) (a : Nat) (v : Byte) :
    memRead (memWrite m a v) a = v := memRead_memWrite_same_from hm a v

theorem memRead_memWrite {m : Memory} (hm : MemWf m) (a a' : Nat) (v : Byte) :
    memRead (memWrite m a v) a' = if a' = a then v else memRead m a' := by
  split
  · next h => rw [h]; exact memRead_memWrite_same hm a v
  · next h => exact memRead_memWrite_other v h

/-! ## Every operation keeps the canonical form -/

theorem memWfFrom_memWrite {lo : Nat} {m : Memory} (hm : memWfFrom lo m = true) {a : Nat} (v : Byte)
    (hlo : lo ≤ a) (ha : a < Config.fbBytes) : memWfFrom lo (memWrite m a v) = true := by
  induction m generalizing lo with
  | nil =>
    by_cases hv : v = memUnlisted
    · simp [memWrite, hv, memWfFrom]
    · simp only [memWrite, hv, if_false, memWfFrom_cons]
      exact ⟨hlo, ha, hv, rfl⟩
  | cons c rest ih =>
    obtain ⟨k, b⟩ := c
    have hm' := hm
    rw [memWfFrom_cons] at hm'
    obtain ⟨hk, hkb, hb, hr⟩ := hm'
    simp only [memWrite]
    split
    · next hak =>
      split
      · exact hm
      · next hv =>
        rw [memWfFrom_cons]
        exact ⟨hlo, ha, hv, memWfFrom_cons.mpr ⟨hak, hkb, hb, hr⟩⟩
    · split
      · next hak =>
        subst hak
        split
        · exact memWfFrom_mono (by omega) hr
        · next hv => exact memWfFrom_cons.mpr ⟨hlo, ha, hv, hr⟩
      · exact memWfFrom_cons.mpr ⟨hk, hkb, hb, ih hr (by omega)⟩

/-- A write to an address of the framebuffer keeps the canonical form. -/
theorem memWf_memWrite {m : Memory} (hm : MemWf m) {a : Nat} (v : Byte) (ha : a < Config.fbBytes) :
    MemWf (memWrite m a v) := memWfFrom_memWrite hm v (Nat.zero_le a) ha

theorem memWf_byteOpRun {m : Memory} (hm : MemWf m) {o : ByteOp} (ho : o.addr < Config.fbBytes) :
    MemWf (byteOpRun m o) := memWf_memWrite hm _ ho

theorem memWf_byteOpsRun {m : Memory} (hm : MemWf m) {os : List ByteOp}
    (ho : ∀ o ∈ os, o.addr < Config.fbBytes) : MemWf (byteOpsRun m os) := by
  induction os generalizing m with
  | nil => exact hm
  | cons o os ih =>
    exact ih (memWf_byteOpRun hm (ho o List.mem_cons_self)) fun o' h' => ho o' (List.mem_cons_of_mem o h')

/-! ## Equal bytes, equal framebuffers -/

theorem mem_ext_from {lo lo' : Nat} {m m' : Memory} (hm : memWfFrom lo m = true)
    (hm' : memWfFrom lo' m' = true) (h : ∀ a, memRead m a = memRead m' a) : m = m' := by
  induction m generalizing lo lo' m' with
  | nil =>
    cases m' with
    | nil => rfl
    | cons c rest =>
      obtain ⟨k, b⟩ := c
      have := h k
      simp [memRead] at this
      exact absurd this.symm (memWfFrom_cons.mp hm').2.2.1
  | cons c rest ih =>
    obtain ⟨k, b⟩ := c
    obtain ⟨_, _, hb, hr⟩ := memWfFrom_cons.mp hm
    cases m' with
    | nil =>
      have := h k
      simp [memRead] at this
      exact absurd this hb
    | cons c' rest' =>
      obtain ⟨k', b'⟩ := c'
      obtain ⟨_, _, hb', hr'⟩ := memWfFrom_cons.mp hm'
      have hkk : k = k' := by
        rcases Nat.lt_trichotomy k k' with hlt | heq | hgt
        · have := h k
          have hne : k' ≠ k := by omega
          simp only [memRead, if_true, hne, if_false] at this
          rw [memRead_below hr' (by omega)] at this
          exact absurd this hb
        · exact heq
        · have := h k'
          have hne : k ≠ k' := by omega
          simp only [memRead, if_true, hne, if_false] at this
          rw [memRead_below hr (by omega)] at this
          exact absurd this.symm hb'
      subst hkk
      have hbb : b = b' := by simpa [memRead] using h k
      subst hbb
      refine congrArg _ (ih hr hr' fun a => ?_)
      by_cases hak : k = a
      · subst hak
        rw [memRead_below hr (by omega), memRead_below hr' (by omega)]
      · simpa [memRead, hak] using h a

/-- Two framebuffers in canonical form that read alike everywhere are equal. -/
theorem mem_ext {m m' : Memory} (hm : MemWf m) (hm' : MemWf m') (h : ∀ a, memRead m a = memRead m' a) :
    m = m' := mem_ext_from hm hm' h

theorem memWf_nil : MemWf [] := rfl

/-- The framebuffer of the state after reset is in canonical form. -/
theorem memWf_reset : MemWf State.reset.fb := rfl

end Sys2Proof.Machine
end

