-- ==== Sys2Proof/Laws/Lanes.lean ====
section
/-! SUPPORT. What byte operations do lane by lane (40_span_blitters.md R80, R81, R90), and the bit-packer's
arithmetic (20_memory.md R41, 40_span_blitters.md R82). -/

namespace Sys2Proof.Machine

/-! ## One byte operation -/

theorem bitOpApply_lane (op : BitOp) (b mask : Byte) {i : Nat} (hi : i < 8) :
    (bitOpApply op b mask).getLsbD i = if mask.getLsbD i = true then bitResult op (b.getLsbD i) else b.getLsbD i := by
  cases op <;> simp only [bitOpApply, bitResult, BitVec.getLsbD_or, BitVec.getLsbD_and, BitVec.getLsbD_not,
    BitVec.getLsbD_xor, hi, decide_true, Bool.true_and] <;> cases mask.getLsbD i <;> simp

@[simp] theorem laneRun_nil (a i : Nat) (p : Bool) : laneRun a i [] p = p := rfl

@[simp] theorem laneRun_cons (a i : Nat) (o : ByteOp) (os : List ByteOp) (p : Bool) :
    laneRun a i (o :: os) p =
      laneRun a i os (if o.addr = a ∧ o.mask.getLsbD i = true then bitResult o.op p else p) := rfl

@[simp] theorem laneRun_append (a i : Nat) (os os' : List ByteOp) (p : Bool) :
    laneRun a i (os ++ os') p = laneRun a i os' (laneRun a i os p) := by
  simp [laneRun, List.foldl_append]

/-- A sequence of byte operations none of which selects the lane leaves it. -/
theorem laneRun_untouched {a i : Nat} {os : List ByteOp}
    (h : ∀ o ∈ os, ¬(o.addr = a ∧ o.mask.getLsbD i = true)) (p : Bool) : laneRun a i os p = p := by
  induction os generalizing p with
  | nil => rfl
  | cons o os ih =>
    rw [laneRun_cons, if_neg (h o List.mem_cons_self)]
    exact ih (fun o' h' => h o' (List.mem_cons_of_mem o h')) p

theorem memRead_byteOpRun {m : Memory} (hm : MemWf m) (o : ByteOp) (a : Nat) :
    memRead (byteOpRun m o) a =
      if a = o.addr then bitOpApply o.op (memRead m a) o.mask else memRead m a := by
  unfold byteOpRun
  rw [memRead_memWrite hm]
  split
  · next h => rw [h]
  · rfl

/-- The lane spec of a sequence of byte operations: it says all they can do to a byte. -/
theorem byteOpsRun_lane {m : Memory} (hm : MemWf m) {os : List ByteOp}
    (ho : ∀ o ∈ os, o.addr < Config.fbBytes) (a : Nat) {i : Nat} (hi : i < 8) :
    (memRead (byteOpsRun m os) a).getLsbD i = laneRun a i os ((memRead m a).getLsbD i) := by
  induction os generalizing m with
  | nil => rfl
  | cons o os ih =>
    have hoa := ho o List.mem_cons_self
    have : byteOpsRun m (o :: os) = byteOpsRun (byteOpRun m o) os := rfl
    rw [this, ih (memWf_byteOpRun hm hoa) fun o' h' => ho o' (List.mem_cons_of_mem o h'),
      laneRun_cons, memRead_byteOpRun hm]
    congr 1
    by_cases hao : a = o.addr
    · subst hao; simp only [if_true, true_and]; exact bitOpApply_lane _ _ _ hi
    · simp [hao, Ne.symm hao]

/-- Bytes at addresses no operation names are untouched; no premise on the framebuffer. -/
theorem byteOpsRun_other {m : Memory} {os : List ByteOp} {a : Nat} (h : ∀ o ∈ os, o.addr ≠ a) :
    memRead (byteOpsRun m os) a = memRead m a := by
  induction os generalizing m with
  | nil => rfl
  | cons o os ih =>
    have : byteOpsRun m (o :: os) = byteOpsRun (byteOpRun m o) os := rfl
    rw [this, ih fun o' h' => h o' (List.mem_cons_of_mem o h')]
    exact memRead_memWrite_other _ (h o List.mem_cons_self).symm

theorem byteOpsRun_append (m : Memory) (os os' : List ByteOp) :
    byteOpsRun m (os ++ os') = byteOpsRun (byteOpsRun m os) os' := List.foldl_append

/-- Two sequences of byte operations that do the same to every lane do the same to the framebuffer. -/
theorem byteOpsRun_eq_of_lanes {m : Memory} (hm : MemWf m) {os os' : List ByteOp}
    (ho : ∀ o ∈ os, o.addr < Config.fbBytes) (ho' : ∀ o ∈ os', o.addr < Config.fbBytes)
    (h : ∀ a i p, i < 8 → laneRun a i os p = laneRun a i os' p) : byteOpsRun m os = byteOpsRun m os' := by
  refine mem_ext (memWf_byteOpsRun hm ho) (memWf_byteOpsRun hm ho') fun a => ?_
  refine BitVec.eq_of_getLsbD_eq fun i hi => ?_
  rw [byteOpsRun_lane hm ho a hi, byteOpsRun_lane hm ho' a hi, h a i _ hi]

/-- The pixel spec of a sequence of byte operations (20_memory.md R41). -/
theorem pixelOf_byteOpsRun {m : Memory} (hm : MemWf m) {os : List ByteOp}
    (ho : ∀ o ∈ os, o.addr < Config.fbBytes) (x y : Nat) :
    pixelOf (byteOpsRun m os) x y = laneRun (fbAddr x y) (fbBit y) os (pixelOf m x y) :=
  byteOpsRun_lane hm ho _ (Nat.mod_lt _ (by decide))

/-! ## The bit-packer -/

theorem fbBit_lt (y : Nat) : fbBit y < 8 := Nat.mod_lt _ (by decide)

theorem fbAddr_lt {x y : Nat} (hx : x < 72) (hy : y < 40) : fbAddr x y < Config.fbBytes := by
  simp only [fbAddr, Config.fbBytes, Config.screenW]; omega

/-- Distinct on-screen pixels have distinct (byte, bit) places (20_memory.md R41). -/
theorem fbPlace_inj {x y x' y' : Nat} (hx : x < 72) (hx' : x' < 72)
    (ha : fbAddr x y = fbAddr x' y') (hb : fbBit y = fbBit y') : x = x' ∧ y = y' := by
  simp only [fbAddr, fbBit, Config.screenW] at ha hb; omega

theorem fbMask_lane (y : Nat) {i : Nat} (hi : i < 8) : (fbMask y).getLsbD i = decide (i = fbBit y) := by
  have hb := fbBit_lt y
  unfold fbMask
  generalize fbBit y = b at hb
  have key : ∀ b < 8, ∀ i < 8, (1#8 <<< b).getLsbD i = decide (i = b) := by decide
  exact key b hb i hi

/-- Every place of the framebuffer is an on-screen pixel's (20_memory.md R41). -/
theorem fbPlace_surj {a i : Nat} (ha : a < Config.fbBytes) (hi : i < 8) :
    ∃ x y, x < 72 ∧ y < 40 ∧ a = fbAddr x y ∧ i = fbBit y := by
  refine ⟨a % 72, a / 72 * 8 + i, ?_, ?_, ?_, ?_⟩ <;>
    simp only [fbAddr, fbBit, Config.screenW, Config.fbBytes] at * <;> omega

theorem pixOp_lane {x y x' y' : Nat} (hx : x < 72) (hx' : x' < 72) (op : BitOp) :
    ((pixOp op x' y').addr = fbAddr x y ∧ (pixOp op x' y').mask.getLsbD (fbBit y) = true) ↔
      x' = x ∧ y' = y := by
  simp only [pixOp, fbMask_lane y' (fbBit_lt y), decide_eq_true_eq]
  constructor
  · rintro ⟨h1, h2⟩
    exact fbPlace_inj hx' hx h1 h2.symm
  · rintro ⟨rfl, rfl⟩
    exact ⟨rfl, rfl⟩

theorem colMask_lane_nat {lo hi i : Nat} (hlo : lo < 8) (hhi : hi < 8) (hi8 : i < 8) :
    ((0xFF#8 <<< lo) &&& (0xFF#8 >>> (7 - hi))).getLsbD i = decide (lo ≤ i ∧ i ≤ hi) := by
  have key : ∀ lo < 8, ∀ hi < 8, ∀ i < 8,
      ((0xFF#8 <<< lo) &&& (0xFF#8 >>> (7 - hi))).getLsbD i = decide (lo ≤ i ∧ i ≤ hi) := by decide
  exact key lo hlo hi hhi i hi8

/-- The column mask covers exactly the rows of the span (40_span_blitters.md R82). -/
theorem colMask_lane {p ya yb i : Nat} (hya : ya / 8 ≤ p) (hyb : p ≤ yb / 8) (hi : i < 8) :
    (colMask p ya yb).getLsbD i = decide (ya ≤ 8 * p + i ∧ 8 * p + i ≤ yb) := by
  unfold colMask
  rw [colMask_lane_nat (by omega) (by omega) hi]
  congr 1
  rw [eq_iff_iff]
  omega

end Sys2Proof.Machine
end

