-- ==== Sys2Proof/Laws/PerInstr.lean ====
section
/-! SUPPORT. The family of statements made one instruction at a time: the fields of a command's word are
those of its row of the opcode table (30_encoding.md R61, R63, R66). -/

namespace Sys2Proof.Laws

/-- The opcode of a command's row. -/
def rowOpcode : Instr → BitVec 4
  | .vline _ _ _ _ _ => 1
  | .hline _ _ _ _ => 2
  | .sreset _ _ _ _ => 3
  | .swrite _ _ _ => 4
  | .sdraw _ _ _ => 5

/-- Whether a mode field is one the command's row admits (30_encoding.md R65). -/
def rowMode : Instr → BitVec 3 → Prop
  | .vline _ _ _ _ _, t => 1 ≤ t.toNat ∧ t.toNat ≤ 5
  | .hline _ _ _ _, t => 1 ≤ t.toNat ∧ t.toNat ≤ 5
  | .sreset _ _ _ _, t => t = 0
  | .swrite _ _ _, t => t = 0
  | .sdraw _ _ _, t => 1 ≤ t.toNat ∧ t.toNat ≤ 5

/-- Whether the operand fields a row does not use are 0 (30_encoding.md R66). -/
def rowUnused : Instr → CmdWord → Prop
  | .vline _ _ _ _ _, _ => True
  | .hline _ _ _ _, cw => halfD cw = 0
  | .sreset _ _ _ _, _ => True
  | .swrite _ _ _, cw => halfD cw = 0
  | .sdraw _ _ _, cw => halfC cw = 0 ∧ halfD cw = 0

/-- The word of a command has the opcode, the mode, the reserved and the unused fields of its row. -/
def TableRow.Statement (i : Instr) : Prop :=
  opcodeField (encode i) = rowOpcode i ∧ rsvField (encode i) = 0 ∧ rowMode i (modeField (encode i)) ∧
    rowUnused i (encode i)

theorem TableRow.vline (x1 x2 y1 y2 : Int) (m : DrawMode) :
    TableRow.Statement (.vline x1 x2 y1 y2 m) := by
  cases m <;> simp [TableRow.Statement, encode, rowOpcode, rowMode, rowUnused, DrawMode.tag]

theorem TableRow.hline (y x1 x2 : Int) (m : DrawMode) : TableRow.Statement (.hline y x1 x2 m) := by
  cases m <;> simp [TableRow.Statement, encode, rowOpcode, rowMode, rowUnused, DrawMode.tag]

theorem TableRow.sreset (x1 x2 u l : Int) : TableRow.Statement (.sreset x1 x2 u l) := by
  simp [TableRow.Statement, encode, rowOpcode, rowMode, rowUnused]

theorem TableRow.swrite (x u l : Int) : TableRow.Statement (.swrite x u l) := by
  simp [TableRow.Statement, encode, rowOpcode, rowMode, rowUnused]

theorem TableRow.sdraw (x1 x2 : Int) (m : DrawMode) : TableRow.Statement (.sdraw x1 x2 m) := by
  cases m <;> simp [TableRow.Statement, encode, rowOpcode, rowMode, rowUnused, DrawMode.tag]

end Sys2Proof.Laws
end

