-- ==== Sys2Proof/Laws/Span.lean ====
section
/-! SUPPORT. What the span blitters do, said once: the addresses they touch, and the value they give every
pixel (40_span_blitters.md R84, R86), for the byte-level and the pixel-level form of `VLINE` alike. -/

namespace Sys2Proof.Machine

/-! ## Ranges -/

theorem mem_upTo {a b : Int} (ha : 0 ≤ a) {n : Nat} : n ∈ upTo a b ↔ a ≤ n ∧ (n : Int) ≤ b := by
  simp only [upTo, List.mem_range'_1]; omega

theorem nodup_upTo (a b : Int) : (upTo a b).Nodup := List.nodup_range'

theorem mem_columns {x1 x2 : Int} {x : Nat} : x ∈ columns x1 x2 ↔ inClipped x1 x2 71 x = true := by
  have h0 : (0 : Int) ≤ clipLoX x1 := Int.le_max_right _ _
  rw [columns, mem_upTo h0]
  simp [inClipped, clipLoX, clipHiX, Config.screenW]

theorem nodup_columns (x1 x2 : Int) : (columns x1 x2).Nodup := nodup_upTo _ _

theorem columns_lt {x1 x2 : Int} {x : Nat} (h : x ∈ columns x1 x2) : x < 72 := by
  rw [mem_columns] at h
  simp only [inClipped, Bool.and_eq_true, decide_eq_true_eq] at h
  omega

theorem mem_pages {ya yb p : Nat} (_h : ya ≤ yb) : p ∈ pages ya yb ↔ ya / 8 ≤ p ∧ p ≤ yb / 8 := by
  simp only [pages, List.mem_range'_1]; omega

/-! ## A sequence over distinct indices that reaches a lane at one of them -/

theorem laneRun_flatMap_one {a i x : Nat} {F : Nat → List ByteOp} {xs : List Nat} (hnd : xs.Nodup)
    (miss : ∀ x' ∈ xs, x' ≠ x → ∀ p, laneRun a i (F x') p = p) (p : Bool) :
    laneRun a i (xs.flatMap F) p = if x ∈ xs then laneRun a i (F x) p else p := by
  induction xs generalizing p with
  | nil => rfl
  | cons x' xs ih =>
    have hnd' := List.nodup_cons.mp hnd
    rw [List.flatMap_cons, laneRun_append,
      ih hnd'.2 fun y hy => miss y (List.mem_cons_of_mem x' hy)]
    by_cases h : x' = x
    · subst h; simp [hnd'.1]
    · rw [miss x' List.mem_cons_self h]
      simp [Ne.symm h]

theorem laneRun_map_one {a i x : Nat} {f : Nat → ByteOp} {xs : List Nat} (hnd : xs.Nodup)
    (hit : ∀ x' ∈ xs, ((f x').addr = a ∧ (f x').mask.getLsbD i = true) → x' = x) (p : Bool) :
    laneRun a i (xs.map f) p = if x ∈ xs then laneRun a i [f x] p else p := by
  have hmap : xs.map f = xs.flatMap fun x => [f x] := by induction xs <;> simp_all
  rw [hmap, laneRun_flatMap_one (F := fun x => [f x]) hnd]
  · intro x' hx' hne q
    exact laneRun_untouched (by simpa using fun h1 h2 => hne (hit x' hx' ⟨h1, h2⟩)) q

/-! ## Rows of pixels and the body of `VLINE` -/

theorem laneRun_pixOp {x y x' y' : Nat} (hx : x < 72) (hx' : x' < 72) (op : BitOp) (p : Bool) :
    laneRun (fbAddr x y) (fbBit y) [pixOp op x' y'] p = if x' = x ∧ y' = y then bitResult op p else p := by
  have hop : (pixOp op x' y').op = op := rfl
  rw [laneRun_cons, laneRun_nil, hop]
  simp only [pixOp_lane hx hx' op]

/-- A row of pixel operations over distinct on-screen columns. -/
theorem laneRun_row {x y y' : Nat} (hx : x < 72) {xs : List Nat} (hnd : xs.Nodup) (hxs : ∀ n ∈ xs, n < 72)
    (op : BitOp) (p : Bool) :
    laneRun (fbAddr x y) (fbBit y) (xs.map fun n => pixOp op n y') p =
      if x ∈ xs ∧ y' = y then bitResult op p else p := by
  rw [laneRun_map_one (x := x) hnd fun x' h' h => ((pixOp_lane hx (hxs x' h') op).mp h).1]
  by_cases h : x ∈ xs
  · simp [h, laneRun_pixOp hx hx]
  · simp [h]

theorem laneRun_vlineBody {x y : Nat} (hx : x < 72) {xs : List Nat} (hnd : xs.Nodup)
    (hxs : ∀ n ∈ xs, n < 72) {ya yb : Nat} (hab : ya ≤ yb) (op : BitOp) (p : Bool) :
    laneRun (fbAddr x y) (fbBit y) (vlineBody op xs ya yb) p =
      if x ∈ xs ∧ ya ≤ y ∧ y ≤ yb then bitResult op p else p := by
  have hb := fbBit_lt y
  have place : ∀ x' pg, x' < 72 → pg * Config.screenW + x' = fbAddr x y → x' = x ∧ pg = y / 8 := by
    intro x' pg hx' h
    simp only [fbAddr, Config.screenW] at h; omega
  unfold vlineBody
  rw [laneRun_flatMap_one (x := x) hnd]
  · by_cases h : x ∈ xs
    · rw [if_pos h]
      rw [laneRun_map_one (x := y / 8) (xs := pages ya yb) List.nodup_range'
        fun pg _ h' => (place x pg hx h'.1).2]
      have hrow : 8 * (y / 8) + fbBit y = y := by simp only [fbBit]; omega
      by_cases hp : y / 8 ∈ pages ya yb
      · have hp' := (mem_pages hab).mp hp
        have hl := colMask_lane (i := fbBit y) hp'.1 hp'.2 hb
        rw [hrow] at hl
        simp [hp, h, hl, fbAddr]
      · have hn : ¬(ya ≤ y ∧ y ≤ yb) := by
          rw [mem_pages hab] at hp; omega
        simp [hp, hn]
    · simp [h]
  · intro x' hx' hne q
    refine laneRun_untouched (fun o ho => ?_) q
    obtain ⟨pg, _, rfl⟩ := List.mem_map.mp ho
    intro h
    exact hne (place x' pg (hxs x' hx') h.1).1

theorem laneRun_pixelBody {x y : Nat} (hx : x < 72) {xs ys : List Nat} (hnd : xs.Nodup)
    (hxs : ∀ n ∈ xs, n < 72) (hys : ys.Nodup) (op : BitOp) (p : Bool) :
    laneRun (fbAddr x y) (fbBit y) (xs.flatMap fun n => ys.map fun y' => pixOp op n y') p =
      if x ∈ xs ∧ y ∈ ys then bitResult op p else p := by
  rw [laneRun_flatMap_one (x := x) hnd]
  · by_cases h : x ∈ xs
    · rw [if_pos h, laneRun_map_one (x := y) hys fun y' _ h' => ((pixOp_lane hx hx op).mp h').2]
      by_cases hy : y ∈ ys
      · simp [h, hy, laneRun_pixOp hx hx]
      · simp [hy]
    · simp [h]
  · intro x' hx' hne q
    refine laneRun_untouched (fun o ho => ?_) q
    obtain ⟨y', _, rfl⟩ := List.mem_map.mp ho
    intro h
    exact hne ((pixOp_lane hx (hxs x' hx') op).mp h).1

/-! ## `VLINE` -/

theorem vlineBody_addr {op : BitOp} {xs : List Nat} {ya yb : Nat} (hxs : ∀ n ∈ xs, n < 72)
    (hab : ya ≤ yb) (hyb : yb < 40) : ∀ o ∈ vlineBody op xs ya yb, o.addr < Config.fbBytes := by
  intro o ho
  obtain ⟨x, hx, ho⟩ := List.mem_flatMap.mp ho
  obtain ⟨pg, hp, rfl⟩ := List.mem_map.mp ho
  have := hxs x hx
  have := (mem_pages hab).mp hp
  simp only [Config.fbBytes, Config.screenW]; omega

theorem row_addr {op : BitOp} {xs : List Nat} {y : Nat} (hxs : ∀ n ∈ xs, n < 72) (hy : y < 40) :
    ∀ o ∈ xs.map (fun n => pixOp op n y), o.addr < Config.fbBytes := by
  intro o ho
  obtain ⟨x, hx, rfl⟩ := List.mem_map.mp ho
  exact fbAddr_lt (hxs x hx) hy

theorem upToX_lt {x1 x2 : Int} : ∀ n ∈ upTo (clipLoX x1) (clipHiX x2), n < 72 :=
  fun _ => columns_lt

/-- A `VLINE` touches addresses of the framebuffer only (20_memory.md R46). -/
theorem vlineOps_addr (x1 x2 y1 y2 : Int) (mode : DrawMode) :
    ∀ o ∈ vlineOps x1 x2 y1 y2 mode, o.addr < Config.fbBytes := by
  intro o ho
  simp only [vlineOps] at ho
  split at ho
  · simp at ho
  · next hne =>
    have hya : (clipLoY y1).toNat < 40 := by simp only [clipLoY, clipHiY, Config.screenH] at *; omega
    have hyb : (clipHiY y2).toNat < 40 := by simp only [clipLoY, clipHiY, Config.screenH] at *; omega
    have hab : (clipLoY y1).toNat ≤ (clipHiY y2).toNat := by
      simp only [clipLoY, clipHiY, Config.screenH] at *; omega
    rcases List.mem_append.mp ho with ho | ho
    · rcases List.mem_append.mp ho with ho | ho
      · exact vlineBody_addr upToX_lt hab hyb o ho
      · split at ho
        · exact row_addr upToX_lt hya o ho
        · simp at ho
    · split at ho
      · exact row_addr upToX_lt hyb o ho
      · simp at ho

/-- Toggling the boundary rows after the body gives the table of 40_span_blitters.md R84. -/
theorem toggles_value {y1 y2 : Int} {y : Nat} {mode : DrawMode} {p : Bool}
    (hy : clipLoY y1 ≤ y ∧ (y : Int) ≤ clipHiY y2) (hy12 : y1 ≤ y2) :
    (if isOutline mode = true ∧ y2 = clipHiY y2 ∧ y1 ≠ y2 ∧ (clipHiY y2).toNat = y then
        !(if isOutline mode = true ∧ y1 = clipLoY y1 ∧ (clipLoY y1).toNat = y then
            !(bitResult (bodyOp mode) p) else bitResult (bodyOp mode) p)
      else if isOutline mode = true ∧ y1 = clipLoY y1 ∧ (clipLoY y1).toNat = y then
            !(bitResult (bodyOp mode) p) else bitResult (bodyOp mode) p) =
      spanValue mode (decide ((y : Int) = y1 ∨ (y : Int) = y2)) p := by
  have h1 : (y1 = clipLoY y1 ∧ (clipLoY y1).toNat = y) ↔ (y : Int) = y1 := by
    simp only [clipLoY, clipHiY, Config.screenH] at *; omega
  have h2 : (y2 = clipHiY y2 ∧ y1 ≠ y2 ∧ (clipHiY y2).toNat = y) ↔ ((y : Int) = y2 ∧ y1 ≠ y2) := by
    simp only [clipLoY, clipHiY, Config.screenH] at *; omega
  simp only [h1, h2]
  by_cases e1 : (y : Int) = y1 <;> by_cases e2 : (y : Int) = y2 <;>
    cases mode <;> simp [isOutline, bodyOp, bitResult, spanValue, e1, e2] <;> (split <;> omega)

theorem laneRun_ifRow {x y y' : Nat} (hx : x < 72) {xs : List Nat} (hnd : xs.Nodup)
    (hxs : ∀ n ∈ xs, n < 72) (c : Prop) [Decidable c] (p : Bool) :
    laneRun (fbAddr x y) (fbBit y) (if c then xs.map (fun n => pixOp .tgl n y') else []) p =
      if c ∧ x ∈ xs ∧ y' = y then !p else p := by
  by_cases h : c
  · simp only [h, if_true, true_and]
    rw [laneRun_row hx hnd hxs]; rfl
  · simp [h]

/-- What a `VLINE` does to an on-screen pixel (40_span_blitters.md R84), from the byte-level form R85. -/
theorem vlineOps_lane {x y : Nat} (hx : x < 72) (hy : y < 40) (x1 x2 y1 y2 : Int) (mode : DrawMode)
    (p : Bool) :
    laneRun (fbAddr x y) (fbBit y) (vlineOps x1 x2 y1 y2 mode) p = vlineValue x1 x2 y1 y2 mode x y p := by
  have hX : (x ∈ upTo (clipLoX x1) (clipHiX x2)) ↔ inClipped x1 x2 71 x = true := mem_columns
  simp only [vlineOps, vlineValue, inRect]
  split
  · next h =>
    have : ¬(inClipped x1 x2 71 x = true ∧ inClipped y1 y2 39 y = true) := by
      simp only [inClipped, Bool.and_eq_true, decide_eq_true_eq, clipLoX, clipHiX, clipLoY, clipHiY,
        Config.screenW, Config.screenH] at *
      omega
    simp [this]
  · next hne =>
    have hab : (clipLoY y1).toNat ≤ (clipHiY y2).toNat := by
      simp only [clipLoY, clipHiY, Config.screenH] at *; omega
    rw [laneRun_append, laneRun_append, laneRun_vlineBody hx (nodup_upTo _ _) upToX_lt hab]
    simp only [rowToggle]
    rw [laneRun_ifRow hx (nodup_upTo _ _) upToX_lt, laneRun_ifRow hx (nodup_upTo _ _) upToX_lt]
    simp only [hX]
    by_cases hxin : inClipped x1 x2 71 x = true
    · simp only [hxin, true_and, Bool.true_and]
      by_cases hyin : inClipped y1 y2 39 y = true
      · have hyin' : clipLoY y1 ≤ y ∧ (y : Int) ≤ clipHiY y2 := by
          simpa [inClipped, clipLoY, clipHiY, Config.screenH] using hyin
        have hnat : (clipLoY y1).toNat ≤ y ∧ y ≤ (clipHiY y2).toNat := by omega
        have h12 : y1 ≤ y2 := by simp only [clipLoY, clipHiY, Config.screenH] at *; omega
        rw [if_pos hnat, if_pos hyin, ← toggles_value hyin' h12]
        simp only [and_assoc]
      · have hn : ¬(clipLoY y1 ≤ (y : Int) ∧ (y : Int) ≤ clipHiY y2) := by
          simpa [inClipped, clipLoY, clipHiY, Config.screenH] using hyin
        have hnat : ¬((clipLoY y1).toNat ≤ y ∧ y ≤ (clipHiY y2).toNat) := by
          simp only [clipLoY, clipHiY, Config.screenH] at *; omega
        have e1 : (clipLoY y1).toNat ≠ y := by
          simp only [clipLoY, clipHiY, Config.screenH] at *; omega
        have e2 : (clipHiY y2).toNat ≠ y := by
          simp only [clipLoY, clipHiY, Config.screenH] at *; omega
        rw [if_neg (fun h => e2 h.2), if_neg (fun h => e1 h.2), if_neg hnat, if_neg hyin]
    · simp [hxin]

/-- What the pixel-level `VLINE` does to an on-screen pixel: the same. -/
theorem vlinePixelOps_lane {x y : Nat} (hx : x < 72) (hy : y < 40) (x1 x2 y1 y2 : Int) (mode : DrawMode)
    (p : Bool) :
    laneRun (fbAddr x y) (fbBit y) (vlinePixelOps x1 x2 y1 y2 mode) p =
      vlineValue x1 x2 y1 y2 mode x y p := by
  have h0 : (0 : Int) ≤ clipLoY y1 := Int.le_max_right _ _
  rw [← vlineOps_lane hx hy]
  simp only [vlineOps, vlinePixelOps]
  split
  · rfl
  · next hne =>
    have hab : (clipLoY y1).toNat ≤ (clipHiY y2).toNat := by
      simp only [clipLoY, clipHiY, Config.screenH] at *; omega
    have hY : y ∈ upTo (clipLoY y1) (clipHiY y2) ↔ (clipLoY y1).toNat ≤ y ∧ y ≤ (clipHiY y2).toNat := by
      rw [mem_upTo h0]; omega
    simp only [laneRun_append, rowToggle]
    rw [laneRun_vlineBody hx (nodup_upTo _ _) upToX_lt hab,
      laneRun_pixelBody hx (nodup_upTo _ _) upToX_lt (nodup_upTo _ _)]
    simp only [hY]

/-- Every lane a `VLINE`'s byte operations select is a pixel of its clipped rectangle
(40_span_blitters.md R88 item 4), so a part of them stays there too. -/
theorem vlineOps_reach {x y : Nat} (hx : x < 72) {x1 x2 y1 y2 : Int} {mode : DrawMode} {o : ByteOp}
    (ho : o ∈ vlineOps x1 x2 y1 y2 mode) (hl : o.addr = fbAddr x y ∧ o.mask.getLsbD (fbBit y) = true) :
    inRect x1 x2 y1 y2 x y = true := by
  have goal : ∀ {n : Nat}, n ∈ upTo (clipLoX x1) (clipHiX x2) →
      n = x → clipLoY y1 ≤ (y : Int) ∧ (y : Int) ≤ clipHiY y2 → inRect x1 x2 y1 y2 x y = true := by
    rintro n hn rfl hy
    have hX : inClipped x1 x2 71 n = true := mem_columns.mp hn
    have hY : inClipped y1 y2 39 y = true := by
      simpa [inClipped, clipLoY, clipHiY, Config.screenH] using hy
    simp [inRect, hX, hY]
  simp only [vlineOps] at ho
  split at ho
  · simp at ho
  · next hne =>
    have hab : (clipLoY y1).toNat ≤ (clipHiY y2).toNat := by
      simp only [clipLoY, clipHiY, Config.screenH] at *; omega
    have h0 : (0 : Int) ≤ clipLoY y1 := Int.le_max_right _ _
    have h0' : (0 : Int) ≤ clipHiY y2 := by omega
    have row : ∀ y' : Nat, clipLoY y1 ≤ (y' : Int) → (y' : Int) ≤ clipHiY y2 →
        o ∈ rowToggle (upTo (clipLoX x1) (clipHiX x2)) y' → inRect x1 x2 y1 y2 x y = true := by
      intro y' hlo hhi hm
      obtain ⟨n, hn, rfl⟩ := List.mem_map.mp hm
      obtain ⟨rfl, rfl⟩ := (pixOp_lane hx (upToX_lt n hn) .tgl).mp hl
      exact goal hn rfl ⟨hlo, hhi⟩
    rcases List.mem_append.mp ho with ho | ho
    · rcases List.mem_append.mp ho with ho | ho
      · obtain ⟨n, hn, ho⟩ := List.mem_flatMap.mp ho
        obtain ⟨pg, hp, rfl⟩ := List.mem_map.mp ho
        have hn72 := upToX_lt n hn
        have hp' := (mem_pages hab).mp hp
        have hb := fbBit_lt y
        have hpl : n = x ∧ pg = y / 8 := by
          have := hl.1
          simp only [fbAddr, Config.screenW] at this
          omega
        obtain ⟨rfl, rfl⟩ := hpl
        have hm := hl.2
        rw [colMask_lane hp'.1 hp'.2 hb, decide_eq_true_eq] at hm
        have hrow : 8 * (y / 8) + fbBit y = y := by simp only [fbBit]; omega
        rw [hrow] at hm
        exact goal hn rfl (by omega)
      · split at ho
        · exact row _ (by omega) (by omega) ho
        · simp at ho
    · split at ho
      · exact row _ (by omega) (by omega) ho
      · simp at ho

/-! ## `HLINE` -/

/-- An `HLINE` touches addresses of the framebuffer only. -/
theorem hlineOps_addr (y0 x1 x2 : Int) (mode : DrawMode) :
    ∀ o ∈ hlineOps y0 x1 x2 mode, o.addr < Config.fbBytes := by
  intro o ho
  simp only [hlineOps] at ho
  split at ho
  · simp at ho
  · next hne =>
    have hy : y0.toNat < 40 := by simp only [Config.screenH] at *; omega
    have hxa : (clipLoX x1).toNat < 72 := by simp only [clipLoX, clipHiX, Config.screenW] at *; omega
    have hxb : (clipHiX x2).toNat < 72 := by simp only [clipLoX, clipHiX, Config.screenW] at *; omega
    rcases List.mem_append.mp ho with ho | ho
    · rcases List.mem_append.mp ho with ho | ho
      · exact row_addr upToX_lt hy o ho
      · split at ho
        · rw [List.mem_singleton.mp ho]; exact fbAddr_lt hxa hy
        · simp at ho
    · split at ho
      · rw [List.mem_singleton.mp ho]; exact fbAddr_lt hxb hy
      · simp at ho

theorem laneRun_ifPixel {x y x' y' : Nat} (hx : x < 72) (hx' : x' < 72) (c : Prop) [Decidable c] (p : Bool) :
    laneRun (fbAddr x y) (fbBit y) (if c then [pixOp .tgl x' y'] else []) p =
      if c ∧ x' = x ∧ y' = y then !p else p := by
  by_cases h : c
  · simp only [h, if_true, true_and]
    rw [laneRun_pixOp hx hx']; rfl
  · simp [h]

/-- What an `HLINE` does to an on-screen pixel (40_span_blitters.md R86). -/
theorem hlineOps_lane {x y : Nat} (hx : x < 72) (hy : y < 40) (y0 x1 x2 : Int) (mode : DrawMode) (p : Bool) :
    laneRun (fbAddr x y) (fbBit y) (hlineOps y0 x1 x2 mode) p = hlineValue y0 x1 x2 mode x y p := by
  have hX : (x ∈ upTo (clipLoX x1) (clipHiX x2)) ↔ inClipped x1 x2 71 x = true := mem_columns
  simp only [hlineOps, hlineValue]
  split
  · next h =>
    have : ¬((y : Int) = y0 ∧ inClipped x1 x2 71 x = true) := by
      simp only [inClipped, Bool.and_eq_true, decide_eq_true_eq, clipLoX, clipHiX,
        Config.screenW, Config.screenH] at *
      omega
    simp [this]
  · next hne =>
    have hxa : (clipLoX x1).toNat < 72 := by simp only [clipLoX, clipHiX, Config.screenW] at *; omega
    have hxb : (clipHiX x2).toNat < 72 := by simp only [clipLoX, clipHiX, Config.screenW] at *; omega
    have hyy : y0.toNat = y ↔ (y : Int) = y0 := by simp only [Config.screenH] at *; omega
    rw [laneRun_append, laneRun_append, laneRun_row hx (nodup_upTo _ _) upToX_lt,
      laneRun_ifPixel hx hxa, laneRun_ifPixel hx hxb]
    simp only [hX, hyy]
    by_cases hyr : (y : Int) = y0
    · simp only [hyr, and_true, true_and]
      by_cases hxin : inClipped x1 x2 71 x = true
      · have hxin' : clipLoX x1 ≤ x ∧ (x : Int) ≤ clipHiX x2 := by
          simpa [inClipped, clipLoX, clipHiX, Config.screenW] using hxin
        have h1 : (x1 = clipLoX x1 ∧ (clipLoX x1).toNat = x) ↔ (x : Int) = x1 := by
          simp only [clipLoX, clipHiX, Config.screenW] at *; omega
        have h2 : (x2 = clipHiX x2 ∧ x1 ≠ x2 ∧ (clipHiX x2).toNat = x) ↔ ((x : Int) = x2 ∧ x1 ≠ x2) := by
          simp only [clipLoX, clipHiX, Config.screenW] at *; omega
        simp only [and_assoc, h1, h2, hxin, if_true]
        by_cases e1 : (x : Int) = x1 <;> by_cases e2 : (x : Int) = x2 <;>
          cases mode <;> simp [isOutline, bodyOp, bitResult, spanValue, e1, e2] <;> (split <;> omega)
      · have hn : ¬(clipLoX x1 ≤ (x : Int) ∧ (x : Int) ≤ clipHiX x2) := by
          simpa [inClipped, clipLoX, clipHiX, Config.screenW] using hxin
        have e1 : (clipLoX x1).toNat ≠ x := by
          simp only [clipLoX, clipHiX, Config.screenW] at *; omega
        have e2 : (clipHiX x2).toNat ≠ x := by
          simp only [clipLoX, clipHiX, Config.screenW] at *; omega
        simp [hxin, e1, e2]
    · simp [hyr]

/-- Every lane an `HLINE`'s byte operations select is a pixel of its clipped row. -/
theorem hlineOps_reach {x y : Nat} (hx : x < 72) {y0 x1 x2 : Int} {mode : DrawMode} {o : ByteOp}
    (ho : o ∈ hlineOps y0 x1 x2 mode) (hl : o.addr = fbAddr x y ∧ o.mask.getLsbD (fbBit y) = true) :
    (y : Int) = y0 ∧ inClipped x1 x2 71 x = true := by
  simp only [hlineOps] at ho
  split at ho
  · simp at ho
  · next hne =>
    have h0 : (0 : Int) ≤ clipLoX x1 := Int.le_max_right _ _
    have pix : ∀ (op : BitOp) (n : Nat), n ∈ upTo (clipLoX x1) (clipHiX x2) → o = pixOp op n y0.toNat →
        (y : Int) = y0 ∧ inClipped x1 x2 71 x = true := by
      rintro op n hn rfl
      obtain ⟨rfl, rfl⟩ := (pixOp_lane hx (upToX_lt n hn) op).mp hl
      exact ⟨by omega, mem_columns.mp hn⟩
    rcases List.mem_append.mp ho with ho | ho
    · rcases List.mem_append.mp ho with ho | ho
      · obtain ⟨n, hn, rfl⟩ := List.mem_map.mp ho
        exact pix _ n hn rfl
      · split at ho
        · exact pix .tgl _ ((mem_upTo h0).mpr (by omega)) (List.mem_singleton.mp ho)
        · simp at ho
    · split at ho
      · exact pix .tgl _ ((mem_upTo h0).mpr (by omega)) (List.mem_singleton.mp ho)
      · simp at ho

end Sys2Proof.Machine
end

