-- ==== Sys2Proof/Laws/State.lean ====
section
/-! SUPPORT. One lemma per field per update of the state, true by `rfl`, so that no later proof unfolds a
record update. -/

namespace Sys2Proof.Machine

/-! ## `drawBytes` -/

@[simp] theorem drawBytes_upper (s : State) (os : List ByteOp) : (drawBytes s os).upper = s.upper := rfl
@[simp] theorem drawBytes_lower (s : State) (os : List ByteOp) : (drawBytes s os).lower = s.lower := rfl
@[simp] theorem drawBytes_status (s : State) (os : List ByteOp) : (drawBytes s os).status = s.status := rfl
@[simp] theorem drawBytes_errCmd (s : State) (os : List ByteOp) : (drawBytes s os).errCmd = s.errCmd := rfl
@[simp] theorem drawBytes_fb (s : State) (os : List ByteOp) :
    (drawBytes s os).fb = byteOpsRun s.fb os := rfl
@[simp] theorem drawBytes_pending (s : State) (os : List ByteOp) :
    (drawBytes s os).pending = s.pending := rfl
@[simp] theorem drawBytes_replies (s : State) (os : List ByteOp) :
    (drawBytes s os).replies = s.replies := rfl
@[simp] theorem drawBytes_freeIndex (s : State) (os : List ByteOp) :
    (drawBytes s os).freeIndex = s.freeIndex := rfl

/-! ## `writePair` and `writePairs` -/

@[simp] theorem writePair_upper (s : State) (u l : Int) (x : Nat) :
    (writePair s u l x).upper = s.upper.setIfInBounds x (half16 u) := rfl
@[simp] theorem writePair_lower (s : State) (u l : Int) (x : Nat) :
    (writePair s u l x).lower = s.lower.setIfInBounds x (half16 l) := rfl
@[simp] theorem writePair_status (s : State) (u l : Int) (x : Nat) :
    (writePair s u l x).status = s.status := rfl
@[simp] theorem writePair_errCmd (s : State) (u l : Int) (x : Nat) :
    (writePair s u l x).errCmd = s.errCmd := rfl
@[simp] theorem writePair_fb (s : State) (u l : Int) (x : Nat) : (writePair s u l x).fb = s.fb := rfl
@[simp] theorem writePair_pending (s : State) (u l : Int) (x : Nat) :
    (writePair s u l x).pending = s.pending := rfl
@[simp] theorem writePair_replies (s : State) (u l : Int) (x : Nat) :
    (writePair s u l x).replies = s.replies := rfl
@[simp] theorem writePair_freeIndex (s : State) (u l : Int) (x : Nat) :
    (writePair s u l x).freeIndex = s.freeIndex := rfl

@[simp] theorem writePairs_nil (s : State) (u l : Int) : writePairs s u l [] = s := rfl
@[simp] theorem writePairs_cons (s : State) (u l : Int) (x : Nat) (xs : List Nat) :
    writePairs s u l (x :: xs) = writePairs (writePair s u l x) u l xs := rfl

/-- Writing boundary pairs changes no field but the boundary registers. -/
theorem writePairs_frame (s : State) (u l : Int) (xs : List Nat) :
    (writePairs s u l xs).fb = s.fb ∧ (writePairs s u l xs).status = s.status ∧
      (writePairs s u l xs).errCmd = s.errCmd ∧ (writePairs s u l xs).pending = s.pending ∧
      (writePairs s u l xs).replies = s.replies ∧ (writePairs s u l xs).freeIndex = s.freeIndex := by
  induction xs generalizing s with
  | nil => simp
  | cons x xs ih => simpa using ih (writePair s u l x)

/-! ## `takeCommandFault`, `leaveCommandFault`, `blockReset`, `reply`, `presentWord` -/

@[simp] theorem takeCommandFault_upper (e : CmdError) (cw : CmdWord) (s : State) :
    (takeCommandFault e cw s).upper = s.upper := rfl
@[simp] theorem takeCommandFault_lower (e : CmdError) (cw : CmdWord) (s : State) :
    (takeCommandFault e cw s).lower = s.lower := rfl
@[simp] theorem takeCommandFault_status (e : CmdError) (cw : CmdWord) (s : State) :
    (takeCommandFault e cw s).status = statusWithErr s.status true e.code := rfl
@[simp] theorem takeCommandFault_errCmd (e : CmdError) (cw : CmdWord) (s : State) :
    (takeCommandFault e cw s).errCmd = commandHalves cw := rfl
@[simp] theorem takeCommandFault_fb (e : CmdError) (cw : CmdWord) (s : State) :
    (takeCommandFault e cw s).fb = s.fb := rfl
@[simp] theorem takeCommandFault_pending (e : CmdError) (cw : CmdWord) (s : State) :
    (takeCommandFault e cw s).pending = s.pending := rfl
@[simp] theorem takeCommandFault_replies (e : CmdError) (cw : CmdWord) (s : State) :
    (takeCommandFault e cw s).replies = s.replies := rfl
@[simp] theorem takeCommandFault_freeIndex (e : CmdError) (cw : CmdWord) (s : State) :
    (takeCommandFault e cw s).freeIndex = s.freeIndex := rfl

@[simp] theorem leaveCommandFault_upper (s : State) : (leaveCommandFault s).upper = s.upper := rfl
@[simp] theorem leaveCommandFault_lower (s : State) : (leaveCommandFault s).lower = s.lower := rfl
@[simp] theorem leaveCommandFault_status (s : State) :
    (leaveCommandFault s).status = statusWithErr s.status false 0 := rfl
@[simp] theorem leaveCommandFault_errCmd (s : State) :
    (leaveCommandFault s).errCmd = Vector.replicate 5 0 := rfl
@[simp] theorem leaveCommandFault_fb (s : State) : (leaveCommandFault s).fb = s.fb := rfl
@[simp] theorem leaveCommandFault_pending (s : State) : (leaveCommandFault s).pending = s.pending := rfl
@[simp] theorem leaveCommandFault_replies (s : State) : (leaveCommandFault s).replies = s.replies := rfl
@[simp] theorem leaveCommandFault_freeIndex (s : State) :
    (leaveCommandFault s).freeIndex = s.freeIndex := rfl

@[simp] theorem blockReset_upper (s : State) : (blockReset s).upper = State.reset.upper := rfl
@[simp] theorem blockReset_lower (s : State) : (blockReset s).lower = State.reset.lower := rfl
@[simp] theorem blockReset_status (s : State) : (blockReset s).status = 0 := rfl
@[simp] theorem blockReset_errCmd (s : State) : (blockReset s).errCmd = Vector.replicate 5 0 := rfl
@[simp] theorem blockReset_fb (s : State) : (blockReset s).fb = s.fb := rfl
@[simp] theorem blockReset_pending (s : State) : (blockReset s).pending = s.pending := rfl
@[simp] theorem blockReset_replies (s : State) : (blockReset s).replies = s.replies := rfl
@[simp] theorem blockReset_freeIndex (s : State) : (blockReset s).freeIndex = s.freeIndex := rfl

@[simp] theorem abandonCommand_upper (s : State) (os : List ByteOp) :
    (abandonCommand s os).upper = State.reset.upper := rfl
@[simp] theorem abandonCommand_lower (s : State) (os : List ByteOp) :
    (abandonCommand s os).lower = State.reset.lower := rfl
@[simp] theorem abandonCommand_status (s : State) (os : List ByteOp) :
    (abandonCommand s os).status = 0 := rfl
@[simp] theorem abandonCommand_errCmd (s : State) (os : List ByteOp) :
    (abandonCommand s os).errCmd = Vector.replicate 5 0 := rfl
@[simp] theorem abandonCommand_fb (s : State) (os : List ByteOp) :
    (abandonCommand s os).fb = byteOpsRun s.fb (abandonedOps s.freeIndex os) := rfl
@[simp] theorem abandonCommand_pending (s : State) (os : List ByteOp) :
    (abandonCommand s os).pending = s.pending := rfl
@[simp] theorem abandonCommand_replies (s : State) (os : List ByteOp) :
    (abandonCommand s os).replies = s.replies := rfl

@[simp] theorem reply_upper (s : State) (r : Reply) : (reply s r).upper = s.upper := rfl
@[simp] theorem reply_lower (s : State) (r : Reply) : (reply s r).lower = s.lower := rfl
@[simp] theorem reply_status (s : State) (r : Reply) : (reply s r).status = s.status := rfl
@[simp] theorem reply_errCmd (s : State) (r : Reply) : (reply s r).errCmd = s.errCmd := rfl
@[simp] theorem reply_fb (s : State) (r : Reply) : (reply s r).fb = s.fb := rfl
@[simp] theorem reply_pending (s : State) (r : Reply) : (reply s r).pending = s.pending := rfl
@[simp] theorem reply_replies (s : State) (r : Reply) : (reply s r).replies = s.replies ++ [r] := rfl
@[simp] theorem reply_freeIndex (s : State) (r : Reply) : (reply s r).freeIndex = s.freeIndex := rfl

@[simp] theorem presentWord_pending (s : State) (cw : CmdWord) :
    (presentWord s cw).pending = .command cw :: s.pending := rfl
@[simp] theorem presentWord_status (s : State) (cw : CmdWord) : (presentWord s cw).status = s.status := rfl
@[simp] theorem presentWord_fb (s : State) (cw : CmdWord) : (presentWord s cw).fb = s.fb := rfl
@[simp] theorem presentWord_upper (s : State) (cw : CmdWord) : (presentWord s cw).upper = s.upper := rfl
@[simp] theorem presentWord_lower (s : State) (cw : CmdWord) : (presentWord s cw).lower = s.lower := rfl

/-! ## The state after reset -/

@[simp] theorem reset_status : State.reset.status = 0 := rfl
@[simp] theorem reset_errCmd : State.reset.errCmd = Vector.replicate 5 0 := rfl
@[simp] theorem reset_fb : State.reset.fb = [] := rfl
@[simp] theorem reset_pending : State.reset.pending = [] := rfl

end Sys2Proof.Machine
end

