-- ==== Sys2Proof/Laws/Registers.lean ====
section
/-! SUPPORT. What the register operations do: the boundary pairs, the fields of `STATUS`. -/

namespace Sys2Proof.Machine

/-! ## Boundary registers (41_shape_boundary.md R100, R101) -/

theorem upperRaw_writePair (s : State) (u l : Int) {x x' : Nat} (hx' : x' < 72) :
    upperRaw (writePair s u l x) x' = if x' = x then half16 u else upperRaw s x' := by
  simp only [upperRaw, writePair_upper, Vector.getElem?_eq_getElem hx', Option.getD_some,
    Vector.getElem_setIfInBounds hx', eq_comm]

theorem lowerRaw_writePair (s : State) (u l : Int) {x x' : Nat} (hx' : x' < 72) :
    lowerRaw (writePair s u l x) x' = if x' = x then half16 l else lowerRaw s x' := by
  simp only [lowerRaw, writePair_lower, Vector.getElem?_eq_getElem hx', Option.getD_some,
    Vector.getElem_setIfInBounds hx', eq_comm]

/-- All that writing boundary pairs does to `UPPER`. -/
theorem upperRaw_writePairs (s : State) (u l : Int) (xs : List Nat) {x : Nat} (hx : x < 72) :
    upperRaw (writePairs s u l xs) x = if x ∈ xs then half16 u else upperRaw s x := by
  induction xs generalizing s with
  | nil => simp
  | cons x' xs ih =>
    rw [writePairs_cons, ih, upperRaw_writePair s u l hx]
    by_cases h : x ∈ xs <;> by_cases h' : x = x' <;> simp [h, h']

/-- All that writing boundary pairs does to `LOWER`. -/
theorem lowerRaw_writePairs (s : State) (u l : Int) (xs : List Nat) {x : Nat} (hx : x < 72) :
    lowerRaw (writePairs s u l xs) x = if x ∈ xs then half16 l else lowerRaw s x := by
  induction xs generalizing s with
  | nil => simp
  | cons x' xs ih =>
    rw [writePairs_cons, ih, lowerRaw_writePair s u l hx]
    by_cases h : x ∈ xs <;> by_cases h' : x = x' <;> simp [h, h']

/-- Two boundary files with equal registers are equal. -/
theorem upper_ext {s t : State} (h : ∀ x < 72, upperRaw s x = upperRaw t x) : s.upper = t.upper := by
  ext x hx : 1
  simpa [upperRaw, Vector.getElem?_eq_getElem hx] using h x hx

theorem lower_ext {s t : State} (h : ∀ x < 72, lowerRaw s x = lowerRaw t x) : s.lower = t.lower := by
  ext x hx : 1
  simpa [lowerRaw, Vector.getElem?_eq_getElem hx] using h x hx

/-! ## `STATUS` (10_state.md R24) -/

/-- Every bit of `STATUS` after a fault entry or return. -/
theorem statusWithErr_lane (st : Half) (err : Bool) (code : BitVec 4) {i : Nat} (hi : i < 16) :
    (statusWithErr st err code).getLsbD i =
      if i = 1 then err else if 4 ≤ i ∧ i < 8 then code.getLsbD (i - 4) else st.getLsbD i := by
  simp only [statusWithErr, BitVec.getLsbD_append, BitVec.getLsbD_extractLsb', BitVec.getLsbD_ofBool]
  interval_cases i <;> simp

@[simp] theorem statusErr_statusWithErr (st : Half) (err : Bool) (code : BitVec 4) :
    statusErr (statusWithErr st err code) = err := by
  rw [statusErr, statusWithErr_lane st err code (by decide)]; rfl

@[simp] theorem statusBusy_statusWithErr (st : Half) (err : Bool) (code : BitVec 4) :
    statusBusy (statusWithErr st err code) = statusBusy st := by
  rw [statusBusy, statusWithErr_lane st err code (by decide)]; rfl

@[simp] theorem statusErrCode_statusWithErr (st : Half) (err : Bool) (code : BitVec 4) :
    statusErrCode (statusWithErr st err code) = code := by
  apply BitVec.eq_of_getLsbD_eq
  intro i hi
  rw [statusErrCode, BitVec.getLsbD_extractLsb', statusWithErr_lane st err code (by omega),
    if_neg (by omega), if_pos (by omega)]
  simp [hi]

/-- The bits a fault entry or return does not write stay as they are. -/
theorem statusWithErr_kept (st : Half) (err : Bool) (code : BitVec 4) :
    statusWithErr st err code &&& 0xFF0D#16 = st &&& 0xFF0D#16 := by
  apply BitVec.eq_of_getLsbD_eq
  intro i hi
  rw [BitVec.getLsbD_and, BitVec.getLsbD_and, statusWithErr_lane st err code hi]
  interval_cases i <;> simp

/-- The word a fault entry records is the word that caused the fault (10_state.md R27,
60_exceptions.md R163). -/
theorem errCmdWord_of_halves {s : State} {cw : CmdWord} (h : s.errCmd = commandHalves cw) :
    errCmdWord s = cw := by
  unfold errCmdWord
  rw [h]
  exact word_of_halves cw

end Sys2Proof.Machine
end

