-- ==== Sys2Proof/Laws/Shape.lean ====
section
/-! SUPPORT. What `SDRAW` does, said once: it touches addresses of the framebuffer only, a pixel sees the
column it lies in and no other, and gets the value of 42_shape_draw.md R114. -/

namespace Sys2Proof.Machine

/-! ## The effective boundary (42_shape_draw.md R116) -/

theorem lt_foldl_max {f : Nat → Int} {ns : List Nat} {b y : Int} :
    y < ns.foldl (fun b n => max b (f n)) b ↔ y < b ∨ ∃ n ∈ ns, y < f n := by
  induction ns generalizing b with
  | nil => simp
  | cons n ns ih => simp [ih, or_assoc]

theorem foldl_min_lt {f : Nat → Int} {ns : List Nat} {b y : Int} :
    ns.foldl (fun b n => min b (f n)) b < y ↔ b < y ∨ ∃ n ∈ ns, f n < y := by
  induction ns generalizing b with
  | nil => simp
  | cons n ns ih => simp [ih, or_assoc]

/-- A row inside the own span lies in one of the two gaps exactly when some neighbour's span does not hold
it (42_shape_draw.md R114, R116, R117). -/
theorem gaps_iff {s : State} {x : Nat} {y : Int} (hy : upperVal s x < y ∧ y < lowerVal s x) :
    (y < (effBoundary s x).1 ∨ (effBoundary s x).2 < y) ↔
      ∃ n ∈ neighbours x, columnEmpty s n = true ∨ y < upperVal s n ∨ lowerVal s n < y := by
  unfold effBoundary
  by_cases h : (neighbours x).any (columnEmpty s) = true
  · rw [if_pos h]
    obtain ⟨n, hn, he⟩ := List.any_eq_true.mp h
    exact iff_of_true (Or.inl hy.2) ⟨n, hn, Or.inl he⟩
  · rw [if_neg h]
    simp only [lt_foldl_max, foldl_min_lt]
    have hne : ∀ n ∈ neighbours x, ¬columnEmpty s n = true := fun n hn he =>
      h (List.any_eq_true.mpr ⟨n, hn, he⟩)
    constructor
    · rintro ((h1 | ⟨n, hn, h1⟩) | (h1 | ⟨n, hn, h1⟩))
      · omega
      · exact ⟨n, hn, Or.inr (Or.inl h1)⟩
      · omega
      · exact ⟨n, hn, Or.inr (Or.inr h1)⟩
    · rintro ⟨n, hn, h1 | h1 | h1⟩
      · exact absurd h1 (hne n hn)
      · exact Or.inl (Or.inr ⟨n, hn, h1⟩)
      · exact Or.inr (Or.inr ⟨n, hn, h1⟩)

/-! ## One column -/

theorem vlineOps_lane_other {x y x' : Nat} (hx : x < 72) (hy : y < 40) (hne : x' ≠ x) (y1 y2 : Int)
    (mode : DrawMode) (p : Bool) :
    laneRun (fbAddr x y) (fbBit y) (vlineOps x' x' y1 y2 mode) p = p := by
  rw [vlineOps_lane hx hy, vlineValue, if_neg]
  simp only [inRect, inClipped, Bool.and_eq_true, decide_eq_true_eq]
  omega

theorem vlineOps_lane_own {x y : Nat} (hx : x < 72) (hy : y < 40) (y1 y2 : Int) (mode : DrawMode)
    (p : Bool) :
    laneRun (fbAddr x y) (fbBit y) (vlineOps x x y1 y2 mode) p =
      if y1 ≤ y ∧ (y : Int) ≤ y2 then spanValue mode (decide ((y : Int) = y1 ∨ (y : Int) = y2)) p
      else p := by
  rw [vlineOps_lane hx hy, vlineValue]
  congr 1
  simp only [inRect, inClipped, Bool.and_eq_true, decide_eq_true_eq, eq_iff_iff]
  omega

theorem columnOps_addr (s : State) (x1 x2 : Int) (mode : DrawMode) (x : Nat) :
    ∀ o ∈ columnOps s x1 x2 mode x, o.addr < Config.fbBytes := by
  intro o ho
  unfold columnOps at ho
  split at ho
  · exact vlineOps_addr _ _ _ _ _ o ho
  · split at ho
    · exact vlineOps_addr _ _ _ _ _ o ho
    · rcases List.mem_append.mp ho with ho | ho
      · rcases List.mem_append.mp ho with ho | ho
        · exact vlineOps_addr _ _ _ _ _ o ho
        · exact vlineOps_addr _ _ _ _ _ o ho
      · exact vlineOps_addr _ _ _ _ _ o ho

/-- `SDRAW` in column `x'` leaves every pixel of another column alone. -/
theorem columnOps_lane_other {s : State} {x1 x2 : Int} {mode : DrawMode} {x y x' : Nat} (hx : x < 72)
    (hy : y < 40) (hne : x' ≠ x) (p : Bool) :
    laneRun (fbAddr x y) (fbBit y) (columnOps s x1 x2 mode x') p = p := by
  unfold columnOps upperGapOps lowerGapOps
  split
  · exact vlineOps_lane_other hx hy hne _ _ _ p
  · split
    · exact vlineOps_lane_other hx hy hne _ _ _ p
    · simp only [laneRun_append, vlineOps_lane_other hx hy hne]

theorem spanValue_plain {mode : DrawMode} (h : borderMode mode = none) (b b' p : Bool) :
    spanValue mode b p = spanValue mode b' p := by
  cases mode <;> simp [borderMode] at h <;> rfl

theorem spanValue_border {mode bm : DrawMode} (h : borderMode mode = some bm) (b p q : Bool) :
    spanValue bm b p = spanValue mode true q := by
  cases mode <;> simp [borderMode] at h <;> subst h <;> rfl

/-- What `SDRAW` in column `x` does to a pixel of the column (42_shape_draw.md R112 to R117). -/
theorem columnOps_lane_own {s : State} {x1 x2 : Int} {mode : DrawMode} {x y : Nat} (hx : x < 72)
    (hy : y < 40) (p : Bool) :
    laneRun (fbAddr x y) (fbBit y) (columnOps s x1 x2 mode x) p =
      if upperVal s x ≤ y ∧ (y : Int) ≤ lowerVal s x then spanValue mode (sdrawBorder s x1 x2 x y) p
      else p := by
  unfold columnOps
  split
  · next hm =>
    rw [vlineOps_lane_own hx hy]
    congr 1
    exact spanValue_plain hm _ _ p
  · next bm hm =>
    split
    · next hedge =>
      rw [vlineOps_lane_own hx hy]
      congr 1
      have : sdrawBorder s x1 x2 x y = true := by
        rcases hedge with h | h <;> simp [sdrawBorder, h]
      rw [this]
      exact spanValue_border hm _ _ _
    · next hedge =>
      have hnb : sdrawBorder s x1 x2 x y = true ↔ ((y : Int) = upperVal s x ∨ (y : Int) = lowerVal s x ∨
          ∃ n ∈ neighbours x, columnEmpty s n = true ∨ (y : Int) < upperVal s n ∨ lowerVal s n < y) := by
        simp only [sdrawBorder, Bool.or_eq_true, decide_eq_true_eq, List.any_eq_true]
        constructor
        · rintro ((((h | h) | h) | h) | ⟨n, hn, h⟩)
          · exact absurd (Or.inl h) hedge
          · exact absurd (Or.inr h) hedge
          · exact Or.inl h
          · exact Or.inr (Or.inl h)
          · exact Or.inr (Or.inr ⟨n, hn, by simpa [or_assoc] using h⟩)
        · rintro (h | h | ⟨n, hn, h⟩)
          · exact Or.inl (Or.inl (Or.inr h))
          · exact Or.inl (Or.inr h)
          · exact Or.inr ⟨n, hn, by simpa [or_assoc] using h⟩
      simp only [laneRun_append, upperGapOps, lowerGapOps, vlineOps_lane_own hx hy]
      by_cases hin : upperVal s x ≤ y ∧ (y : Int) ≤ lowerVal s x
      · simp only [if_pos hin]
        by_cases hu : upperVal s x + 1 ≤ (y : Int) ∧ (y : Int) ≤ min ((effBoundary s x).1 - 1) (lowerVal s x - 1)
        · have hg := (gaps_iff (s := s) (x := x) (y := y) ⟨by omega, by omega⟩).mp (Or.inl (by omega))
          rw [if_pos hu, hnb.mpr (Or.inr (Or.inr hg))]
          split
          · exact spanValue_border hm _ _ _
          · exact spanValue_border hm _ _ _
        · rw [if_neg hu]
          by_cases hl : max ((effBoundary s x).2 + 1) (upperVal s x + 1) ≤ (y : Int) ∧ (y : Int) ≤ lowerVal s x - 1
          · have hg := (gaps_iff (s := s) (x := x) (y := y) ⟨by omega, by omega⟩).mp (Or.inr (by omega))
            rw [if_pos hl, hnb.mpr (Or.inr (Or.inr hg))]
            exact spanValue_border hm _ _ _
          · rw [if_neg hl]
            congr 1
            rw [Bool.eq_iff_iff, hnb, decide_eq_true_eq]
            constructor
            · rintro (h | h)
              · exact Or.inl h
              · exact Or.inr (Or.inl h)
            · rintro (h | h | h)
              · exact Or.inl h
              · exact Or.inr h
              · by_contra hne
                have hstrict : upperVal s x < (y : Int) ∧ (y : Int) < lowerVal s x := by omega
                rcases (gaps_iff hstrict).mpr h with h' | h' <;> omega
      · simp only [if_neg hin]; rw [if_neg (by omega), if_neg (by omega)]

/-! ## The command -/

/-- An `SDRAW` touches addresses of the framebuffer only (20_memory.md R46). -/
theorem sdrawOps_addr (s : State) (x1 x2 : Int) (mode : DrawMode) :
    ∀ o ∈ sdrawOps s x1 x2 mode, o.addr < Config.fbBytes := by
  intro o ho
  obtain ⟨x, _, ho⟩ := List.mem_flatMap.mp ho
  exact columnOps_addr _ _ _ _ _ o ho

/-- What an `SDRAW` does to an on-screen pixel (42_shape_draw.md R114). -/
theorem sdrawOps_lane {x y : Nat} (hx : x < 72) (hy : y < 40) (s : State) (x1 x2 : Int) (mode : DrawMode)
    (p : Bool) :
    laneRun (fbAddr x y) (fbBit y) (sdrawOps s x1 x2 mode) p = sdrawValue s x1 x2 mode x y p := by
  unfold sdrawOps
  rw [laneRun_flatMap_one (x := x) (nodup_columns x1 x2)
    fun x' _ hne q => columnOps_lane_other hx hy hne q]
  rw [columnOps_lane_own hx hy, sdrawValue, inShape]
  have hX : x ∈ columns x1 x2 ↔ inClipped x1 x2 71 x = true := mem_columns
  have hY : (upperVal s x ≤ y ∧ (y : Int) ≤ lowerVal s x) ↔
      inClipped (upperVal s x) (lowerVal s x) 39 y = true := by
    simp only [inClipped, Bool.and_eq_true, decide_eq_true_eq]; omega
  simp only [hX, hY, Bool.and_eq_true]
  by_cases h1 : inClipped x1 x2 71 x = true <;> simp [h1]

/-- Every lane an `SDRAW`'s byte operations select is a pixel of an own span of a drawn column
(42_shape_draw.md R120 item 1). -/
theorem sdrawOps_reach {x y : Nat} (hx : x < 72) {s : State} {x1 x2 : Int} {mode : DrawMode} {o : ByteOp}
    (ho : o ∈ sdrawOps s x1 x2 mode) (hl : o.addr = fbAddr x y ∧ o.mask.getLsbD (fbBit y) = true) :
    inShape s x1 x2 x y = true := by
  obtain ⟨n, hn, ho⟩ := List.mem_flatMap.mp ho
  have span : ∀ (lo hi : Int) (m : DrawMode), o ∈ vlineOps n n lo hi m → upperVal s n ≤ lo →
      hi ≤ lowerVal s n → inShape s x1 x2 x y = true := by
    intro lo hi m hm hlo hhi
    have hr := vlineOps_reach hx hm hl
    simp only [inRect, inClipped, Bool.and_eq_true, decide_eq_true_eq] at hr
    have hnx : n = x := by omega
    subst hnx
    rw [inShape, Bool.and_eq_true]
    refine ⟨mem_columns.mp hn, ?_⟩
    simp only [inClipped, Bool.and_eq_true, decide_eq_true_eq]
    omega
  unfold columnOps upperGapOps lowerGapOps at ho
  split at ho
  · exact span _ _ _ ho (le_refl _) (le_refl _)
  · split at ho
    · exact span _ _ _ ho (le_refl _) (le_refl _)
    · rcases List.mem_append.mp ho with ho | ho
      · rcases List.mem_append.mp ho with ho | ho
        · exact span _ _ _ ho (le_refl _) (le_refl _)
        · exact span _ _ _ ho (by omega) (by omega)
      · exact span _ _ _ ho (by omega) (by omega)

end Sys2Proof.Machine
end

