-- ==== Sys2Proof/Laws/Step.lean ====
section
/-! SUPPORT. What one step can do, said once: the inversion of the step over the host's actions, of the
command port, and of the host's framebuffer access; and what a command can do. -/

namespace Sys2Proof.Machine

/-! ## Commands -/

/-- Every command answers a next state: a drawing command changes the framebuffer by its byte operations, a
boundary command changes the boundary registers of some columns. -/
theorem exec_cases (i : Instr) (s : State) :
    exec i s = .next (drawBytes s (commandOps s i)) ∨
      (commandOps s i = [] ∧ ∃ u l xs, exec i s = .next (writePairs s u l xs)) := by
  cases i with
  | vline => exact Or.inl rfl
  | hline => exact Or.inl rfl
  | sreset x1 x2 u l => exact Or.inr ⟨rfl, u, l, columns x1 x2, rfl⟩
  | swrite x u l =>
    refine Or.inr ⟨rfl, u, l, if 0 ≤ x ∧ x ≤ (Config.screenW : Int) - 1 then [x.toNat] else [], ?_⟩
    simp only [exec, execSwrite]
    split <;> rfl
  | sdraw => exact Or.inl rfl

/-- A command touches addresses of the framebuffer only (20_memory.md R46). -/
theorem commandOps_addr (s : State) (i : Instr) : ∀ o ∈ commandOps s i, o.addr < Config.fbBytes := by
  cases i with
  | vline => exact vlineOps_addr _ _ _ _ _
  | hline => exact hlineOps_addr _ _ _ _
  | sreset => intro o ho; simp [commandOps] at ho
  | swrite => intro o ho; simp [commandOps] at ho
  | sdraw => exact sdrawOps_addr _ _ _ _

/-- Every lane a command's byte operations select is a pixel of its reach. -/
theorem commandOps_reach {x y : Nat} (hx : x < 72) {s : State} {i : Instr} {o : ByteOp}
    (ho : o ∈ commandOps s i) (hl : o.addr = fbAddr x y ∧ o.mask.getLsbD (fbBit y) = true) :
    commandReaches s i x y = true := by
  cases i with
  | vline => exact vlineOps_reach hx ho hl
  | hline => simpa [commandReaches] using hlineOps_reach hx ho hl
  | sreset => simp [commandOps] at ho
  | swrite => simp [commandOps] at ho
  | sdraw => exact sdrawOps_reach hx ho hl

theorem wordOps_addr (s : State) (cw : CmdWord) : ∀ o ∈ wordOps s cw, o.addr < Config.fbBytes := by
  unfold wordOps
  split
  · intro o ho; simp at ho
  · split
    · exact commandOps_addr s _
    · intro o ho; simp at ho

/-! ## The interfaces -/

/-- What the command port can answer. -/
theorem acceptCommand_cases {cw : CmdWord} {s t : State} (h : acceptCommand cw s = .next t) :
    (isFaulted s = true ∧ t = s) ∨
      (isFaulted s = false ∧ ∃ i, decode cw = .ok i ∧ exec i s = .next t) ∨
      (isFaulted s = false ∧ ∃ e, decode cw = .error e ∧ t = takeCommandFault e cw s) := by
  unfold acceptCommand at h
  split at h
  · next hf => exact Or.inl ⟨hf, (Host.Outcome.next.inj h).symm⟩
  · next hf =>
    have hf' : isFaulted s = false := by simpa using hf
    split at h
    · next i hi => exact Or.inr (Or.inl ⟨hf', i, hi, h⟩)
    · next e he => exact Or.inr (Or.inr ⟨hf', e, he, (Host.Outcome.next.inj h).symm⟩)

/-- What a host framebuffer access can answer. -/
theorem hostFbAccess_cases {s k t : State} {a : Nat} (h : hostFbAccess s a k = .next t) :
    statusBusy s.status = false ∧ a < Config.fbBytes ∧ t = k := by
  unfold hostFbAccess at h
  split at h
  · cases h
  · next hb =>
    split at h
    · next ha => exact ⟨by simpa using hb, ha, (Host.Outcome.next.inj h).symm⟩
    · cases h

/-- What a step can do: nothing when the host presents nothing, else the host's next action. -/
theorem step_cases {s t : State} (h : step s = .next t) :
    (s.pending = [] ∧ t = s) ∨
      ∃ a rest, s.pending = a :: rest ∧ hostAct a { s with pending := rest } = .next t := by
  simp only [step, hostStep, nextAction] at h
  cases hp : s.pending with
  | nil =>
    rw [hp] at h
    exact Or.inl ⟨rfl, (Host.Outcome.next.inj h).symm⟩
  | cons a rest =>
    rw [hp] at h
    exact Or.inr ⟨a, rest, rfl, h⟩

theorem step_of_pending {s : State} {a : HostAction} {rest : List HostAction} (h : s.pending = a :: rest) :
    step s = hostAct a { s with pending := rest } := by
  simp only [step, hostStep, nextAction, h]

/-- An abandoned command's byte operations touch the addresses of the command's own. -/
theorem abandonedOps_addr {k : Nat} {os : List ByteOp} (ho : ∀ o ∈ os, o.addr < Config.fbBytes) :
    ∀ o ∈ abandonedOps k os, o.addr < Config.fbBytes := by
  induction os generalizing k with
  | nil => intro o h; simp [abandonedOps] at h
  | cons o os ih =>
    intro o' h
    rcases List.mem_cons.mp h with rfl | h
    · exact ho o List.mem_cons_self
    · exact ih (fun o'' h'' => ho o'' (List.mem_cons_of_mem o h'')) o' h

/-- Every lane an abandoned command's byte operations select is one of the command's own. -/
theorem abandonedOps_lane {k : Nat} {os : List ByteOp} {o : ByteOp} {i : Nat} (ho : o ∈ abandonedOps k os)
    (hl : o.mask.getLsbD i = true) : ∃ o' ∈ os, o'.addr = o.addr ∧ o'.mask.getLsbD i = true := by
  induction os generalizing k with
  | nil => simp [abandonedOps] at ho
  | cons o' os ih =>
    rcases List.mem_cons.mp ho with rfl | ho
    · refine ⟨o', List.mem_cons_self, rfl, ?_⟩
      rw [BitVec.getLsbD_and, Bool.and_eq_true] at hl
      exact hl.1
    · obtain ⟨o'', h1, h2⟩ := ih ho
      exact ⟨o'', List.mem_cons_of_mem o' h1, h2⟩

end Sys2Proof.Machine
end

