-- ==== Sys2Proof/Tests/Slice0.lean ====
section
/-! SUPPORT. The model's own tests: ill-formed terms the check refuses, words written out from the spec's
encoding, one-step results of the spec's vectors (95_test_vectors.md), and for every statement with
hypotheses a state and operands that meet them. -/

namespace Sys2Proof.Tests

open Sys2Proof Sys2Proof.Machine Sys2Proof.Statements

/-! ## Helpers -/

/-- The framebuffer after a command, `none` if it does not answer a next state. -/
def fbAfter (i : Instr) (s : State) : Option Memory :=
  match exec i s with
  | .next t => some t.fb
  | .fault _ => none
  | .refused _ => none

/-- The values of the boundary pairs at some columns after a command. -/
def pairsAfter (i : Instr) (s : State) (xs : List Nat) : List (Int × Int) :=
  match exec i s with
  | .next t => xs.map fun x => (upperVal t x, lowerVal t x)
  | .fault _ => []
  | .refused _ => []

/-- The reset state with a framebuffer. -/
def withFb (m : Memory) : State := { State.reset with fb := m }

/-- The reset state with some boundary pairs. -/
def withPairs (ps : List (Nat × Int × Int)) : State :=
  ps.foldl (fun s p => writePair s p.2.1 p.2.2 p.1) State.reset

/-- The reset state with the host's actions. -/
def withPending (l : List HostAction) : State := { State.reset with pending := l }

/-- The faulted state of program P4 of 95_test_vectors.md: `VLINE` with mode 7 was presented. -/
def faulted (l : List HostAction) : State :=
  { takeCommandFault .mode 0x10070000000000000000#80 State.reset with pending := l }

/-- The diamond of 95_test_vectors.md, section 6. -/
def diamond : State :=
  withPairs [(10, 12, 12), (11, 11, 13), (12, 10, 14), (13, 11, 13), (14, 12, 12)]

/-! ## Well-formedness refuses each out-of-range operand -/

theorem test_vline_illformed :
    Instr.wellFormed (.vline 32768 0 0 0 .fill) = false ∧ Instr.wellFormed (.vline 0 (-32769) 0 0 .fill) = false ∧
    Instr.wellFormed (.vline 0 0 32768 0 .fill) = false ∧ Instr.wellFormed (.vline 0 0 0 (-32769) .fill) = false := by
  decide

theorem test_hline_illformed :
    Instr.wellFormed (.hline 32768 0 0 .fill) = false ∧ Instr.wellFormed (.hline 0 (-32769) 0 .fill) = false ∧
    Instr.wellFormed (.hline 0 0 32768 .fill) = false := by decide

theorem test_sreset_illformed :
    Instr.wellFormed (.sreset 32768 0 0 0) = false ∧ Instr.wellFormed (.sreset 0 (-32769) 0 0) = false ∧
    Instr.wellFormed (.sreset 0 0 32768 0) = false ∧ Instr.wellFormed (.sreset 0 0 0 (-32769)) = false := by
  decide

theorem test_swrite_illformed :
    Instr.wellFormed (.swrite 32768 0 0) = false ∧ Instr.wellFormed (.swrite 0 (-32769) 0) = false ∧
    Instr.wellFormed (.swrite 0 0 32768) = false := by decide

theorem test_sdraw_illformed :
    Instr.wellFormed (.sdraw 32768 0 .xor) = false ∧ Instr.wellFormed (.sdraw 0 (-32769) .xor) = false := by
  decide

/-! ## Decoding: words written out from 30_encoding.md R60 to R63 and R72 -/

theorem test_decode_vline :
    decode 0b00010000000000101111111111111011000000000000001011111111111111010000000000000001#80 =
      .ok (.vline (-5) 2 (-3) 1 .outline) := by decide

theorem test_decode_hline : decode 0x200100090046004B0000#80 = .ok (.hline 9 70 75 .fill) := by decide

theorem test_decode_sreset : decode 0x3000000000470028FFFF#80 = .ok (.sreset 0 71 40 (-1)) := by decide

theorem test_decode_swrite : decode 0x4000004780007FFF0000#80 = .ok (.swrite 71 (-32768) 32767) := by decide

theorem test_decode_sdraw : decode 0x5004000A000E00000000#80 = .ok (.sdraw 10 14 .bgOutline) := by decide

/-- The draw-mode tags of 00_scope.md R6, each read in a word. -/
theorem test_decode_modes :
    decode 0x10010000000000000000#80 = .ok (.vline 0 0 0 0 .fill) ∧
    decode 0x10020000000000000000#80 = .ok (.vline 0 0 0 0 .outline) ∧
    decode 0x10030000000000000000#80 = .ok (.vline 0 0 0 0 .bgFill) ∧
    decode 0x10040000000000000000#80 = .ok (.vline 0 0 0 0 .bgOutline) ∧
    decode 0x10050000000000000000#80 = .ok (.vline 0 0 0 0 .xor) := by decide

/-- Vectors F1 to F17 of 95_test_vectors.md, section 8. -/
theorem test_decode_faults :
    decode 0x00000000000000000000#80 = .error .opcode ∧ decode 0x60010000000000000000#80 = .error .opcode ∧
    decode 0xF00FFFFFFFFFFFFFFFFF#80 = .error .opcode ∧ decode 0x10090000000000000000#80 = .error .reserved ∧
    decode 0x18010000000000000000#80 = .error .reserved ∧ decode 0x10080000000000000000#80 = .error .reserved ∧
    decode 0x2FF90000000000000000#80 = .error .reserved ∧ decode 0x10000000000000000000#80 = .error .mode ∧
    decode 0x10060000000000000000#80 = .error .mode ∧ decode 0x50070000004700000000#80 = .error .mode ∧
    decode 0x3001000000470028FFFF#80 = .error .mode ∧ decode 0x40050000000000000001#80 = .error .mode ∧
    decode 0x20000000000000000001#80 = .error .mode ∧ decode 0x20010000000000000001#80 = .error .operand ∧
    decode 0x40000000000000000001#80 = .error .operand ∧ decode 0x50010000004700010000#80 = .error .operand ∧
    decode 0x50010000004700008000#80 = .error .operand := by decide

/-- The rows of the opcode table, each as the first word after reset. -/
theorem test_table_words :
    decodeTableWord 80 0x10010000000000000000 = some (.vline 0 0 0 0 .fill) ∧
    decodeTableWord 80 0x20010000000000000000 = some (.hline 0 0 0 .fill) ∧
    decodeTableWord 80 0x30000000000000000000 = some (.sreset 0 0 0 0) ∧
    decodeTableWord 80 0x40000000000000000000 = some (.swrite 0 0 0) ∧
    decodeTableWord 80 0x50010000000000000000 = some (.sdraw 0 0 .fill) ∧
    decodeTableWord 80 0x10000000000000000000 = none := by decide

/-! ## One step of each command: vectors V2, V5, H2, H3, B2, B7, S2b, S7 of 95_test_vectors.md -/

theorem test_vline_outline_v2 :
    fbAfter (.vline 3 3 2 12 .outline) State.reset = some [(3, 0xF8), (75, 0x0F)] := by decide +kernel

theorem test_vline_one_end_off_screen_v5 :
    fbAfter (.vline 0 0 (-5) 0 .outline) (withFb [(0, 0xFF)]) = some [(0, 0xFE)] := by decide +kernel

theorem test_hline_end_pixels_h2 :
    fbAfter (.hline 0 0 3 .outline) State.reset = some [(1, 0x01), (2, 0x01)] := by decide +kernel

theorem test_hline_left_end_off_screen_h3 :
    fbAfter (.hline 39 (-2) 1 .bgOutline) (withFb [(288, 0xFF), (289, 0xFF)]) =
      some [(288, 0x7F), (289, 0xFF)] := by decide +kernel

theorem test_sreset_clips_b2 :
    pairsAfter (.sreset (-5) 3 7 9) State.reset [0, 3, 4, 71] = [(7, 9), (7, 9), (40, -1), (40, -1)] := by
  decide +kernel

theorem test_swrite_b7_b9 :
    pairsAfter (.swrite (-1) 0 39) State.reset [0, 71] = [(40, -1), (40, -1)] ∧
    pairsAfter (.swrite 71 (-32768) 32767) State.reset [70, 71] = [(40, -1), (-32768, 32767)] := by
  decide +kernel

theorem test_sdraw_diamond_ring_s2b :
    fbAfter (.sdraw 10 14 .bgOutline) diamond =
      some [(82, 0x10), (83, 0x28), (84, 0x44), (85, 0x28), (86, 0x10)] := by decide +kernel

theorem test_sdraw_disjoint_s7 :
    fbAfter (.sdraw 39 44 .bgOutline) (withPairs [(40, 5, 10), (41, 5, 10), (42, 13, 20), (43, 13, 20)]) =
      some [(40, 0xE0), (41, 0xE0), (112, 0x07), (113, 0x07), (114, 0xE0), (115, 0xE0), (186, 0x1F),
        (187, 0x1F)] := by decide +kernel

/-! ## The assembler: the worked lines of 30_encoding.md R72 and vector M8 of 95_test_vectors.md -/

theorem test_assemble_worked_lines :
    assembleWords "VLINE -5, 2, -3, 1, outline".toList = some [0x1002FFFB0002FFFD0001#80] ∧
    assembleWords "SDRAW 10, 0xE, 4 ; ring".toList = some [0x5004000A000E00000000#80] ∧
    assembleWords "SRESET".toList = some [0x3000000000470028FFFF#80] ∧
    assembleWords "SWRITE 12, 10, 32768".toList = none ∧ assembleWords "VLINE 1, 2, 3, fill".toList = none ∧
    assembleWords "SDRAW 1, 2, red".toList = none := by decide +kernel

theorem test_assemble_rect_m8 :
    assembleWords "RECT 5,7,5,7,outline".toList =
      some [0x10010006000400080006#80, 0x10030005000500070007#80] ∧
    assembleWords "RECT 6,7,5,7,outline".toList = none ∧
    hexText 0x10030005000500070007#80 = "1003 0005 0005 0007 0007".toList := by decide +kernel

/-! ## Witnesses: for each statement with hypotheses, named after it, a state and operands that meet them -/

/-- A framebuffer in canonical form with its first and last byte listed, a not canonical one of each kind. -/
theorem test_memWf_ends :
    MemWf [(0, 0xFF), (359, 0x80)] ∧ memWf [(5, 1), (5, 2)] = false ∧ memWf [(360, 1)] = false ∧
    memWf [(7, 0)] = false := by decide

/-- A non-empty canonical framebuffer over the diamond, used below. -/
def drawn : State := { diamond with fb := [(0, 0xFF), (84, 0x10), (359, 0x80)] }

theorem witness_DecodeEncodeRoundTrip :
    Instr.WellFormed (.vline (-32768) 32767 0 39 .xor) ∧ Instr.WellFormed (.hline 39 (-32768) 32767 .fill) ∧
    Instr.WellFormed (.sreset (-32768) 32767 40 (-1)) ∧ Instr.WellFormed (.swrite 71 (-32768) 32767) ∧
    Instr.WellFormed (.sdraw (-32768) 32767 .bgOutline) := by decide

theorem witness_LegalWordIsTheEncodingOfItsCommand :
    decode 0x1001FFFFFFFFFFFFFFFF#80 = .ok (.vline (-1) (-1) (-1) (-1) .fill) := by decide

/-- One word for each clause, at the ends of the fields' ranges. -/
theorem witness_DecoderFollowsTheOrderedChecks :
    (opcodeNumber 0x00000000000000000000#80 = 0 ∧ opcodeNumber 0x60010000000000000000#80 = 6) ∧
    (opcodeNumber 0x10080000000000000000#80 = 1 ∧ reservedNumber 0x10080000000000000000#80 = 1) ∧
    (opcodeNumber 0x50000000000000000000#80 = 5 ∧ reservedNumber 0x50000000000000000000#80 = 0 ∧
      modeNumber 0x50000000000000000000#80 = 0) ∧
    (opcodeNumber 0x10060000000000000000#80 = 1 ∧ modeNumber 0x10060000000000000000#80 = 6) ∧
    (opcodeNumber 0x30010000000000000000#80 = 3 ∧ modeNumber 0x30010000000000000000#80 = 1) ∧
    (opcodeNumber 0x40000000000000000001#80 = 4 ∧ modeNumber 0x40000000000000000001#80 = 0 ∧
      operandValue 0x40000000000000000001#80 0 = 1) ∧
    (opcodeNumber 0x400000008000FFFF0000#80 = 4 ∧ operandValue 0x400000008000FFFF0000#80 0 = 0 ∧
      operandValue 0x400000008000FFFF0000#80 16 = -1 ∧ operandValue 0x400000008000FFFF0000#80 32 = -32768) ∧
    (opcodeNumber 0x10017FFF0000000000FF#80 = 1 ∧ modeNumber 0x10017FFF0000000000FF#80 = 1 ∧
      operandValue 0x10017FFF0000000000FF#80 48 = 32767 ∧ ((1, DrawMode.fill) ∈ tagTable)) ∧
    (opcodeNumber 0x2005000000000000FFFF#80 = 2 ∧ modeNumber 0x2005000000000000FFFF#80 = 5 ∧
      operandValue 0x2005000000000000FFFF#80 0 = -1 ∧ ((5, DrawMode.xor) ∈ tagTable)) ∧
    (opcodeNumber 0x20010009000000000000#80 = 2 ∧ modeNumber 0x20010009000000000000#80 = 1 ∧
      operandValue 0x20010009000000000000#80 0 = 0) ∧
    (opcodeNumber 0x30000000000000000000#80 = 3 ∧ modeNumber 0x30000000000000000000#80 = 0) ∧
    (opcodeNumber 0x50010000000000010000#80 = 5 ∧ operandValue 0x50010000000000010000#80 16 = 1 ∧
      operandValue 0x50010000000000010000#80 0 = 0) ∧
    (opcodeNumber 0x50020000000000000000#80 = 5 ∧ modeNumber 0x50020000000000000000#80 = 2 ∧
      operandValue 0x50020000000000000000#80 16 = 0) := by decide

/-- Vectors A2, A3: the last place of the framebuffer and one inside it. -/
theorem witness_PixelPlacesAreOneToOne :
    fbAddr 71 39 = 359 ∧ fbBit 39 = 7 ∧ fbAddr 3 12 = 75 ∧ fbBit 12 = 4 ∧ fbAddr 0 0 = 0 := by decide

/-- Vectors K1, K2, K3: the first, the last and a fully covered page. -/
theorem witness_ColumnMaskHoldsTheSpansRows :
    ((2 : Nat) ≤ 12 ∧ 12 ≤ 39 ∧ 2 / 8 ≤ 1 ∧ 1 ≤ 12 / 8) ∧ colMask 0 2 12 = 0xFC ∧ colMask 1 2 12 = 0x1F ∧
    (0 / 8 < 2 ∧ 2 < 39 / 8 ∧ colMask 2 0 39 = 0xFF) := by decide

theorem witness_ByteOperationActsLaneByLane : MemWf drawn.fb ∧ 359 < 360 := by decide

theorem witness_VlineDrawsTheClippedRectangle :
    MemWf drawn.fb ∧ Instr.WellFormed (.vline (-5) 2 (-3) 1 .outline) ∧ (2, DrawMode.outline) ∈ tagTable := by
  decide

theorem witness_VlineByteFormRefinesPixelForm : MemWf drawn.fb := by decide

theorem witness_VlineIsItsColumnsInAnyOrder :
    MemWf drawn.fb ∧ [5, 4].Perm (columns 4 5) ∧ [1, 0].Perm (columns (-3) 1) := by decide

theorem witness_HlineDrawsTheClippedRow :
    MemWf drawn.fb ∧ Instr.WellFormed (.hline 39 (-2) 1 .bgOutline) ∧ (4, DrawMode.bgOutline) ∈ tagTable := by
  decide

/-- Each way a span is empty, at the first value that makes it so. -/
theorem witness_EmptySpansChangeNothing :
    ((5 : Int) < 6 ∧ (6 : Int) < 7 ∧ (-1 : Int) < 0 ∧ (71 : Int) < 72 ∧ (39 : Int) < 40) ∧
    vlineOps 6 5 0 39 .fill = [] ∧ vlineOps 5 5 7 6 .fill = [] ∧ vlineOps (-3) (-1) 0 39 .xor = [] ∧
    vlineOps 72 80 0 39 .fill = [] ∧ vlineOps 0 71 (-9) (-1) .fill = [] ∧ vlineOps 0 71 40 50 .fill = [] ∧
    hlineOps (-1) 0 71 .fill = [] ∧ hlineOps 40 0 71 .fill = [] ∧ hlineOps 5 9 8 .fill = [] ∧
    hlineOps 20 (-4) (-1) .fill = [] ∧ hlineOps 20 72 80 .fill = [] := by decide

theorem witness_XorTwiceRestoresTheState :
    Draws .xor (.vline 0 71 0 39 .xor) ∧ Draws .xor (.hline 39 0 71 .xor) ∧ Draws .xor (.sdraw 0 71 .xor) ∧
    MemWf drawn.fb := ⟨.vline _ _ _ _ _, .hline _ _ _ _, .sdraw _ _ _, by decide⟩

theorem witness_OtherModesAreIdempotent :
    Draws .outline (.vline 3 3 2 12 .outline) ∧ Draws .fill (.hline 9 70 75 .fill) ∧
    Draws .bgOutline (.sdraw 10 14 .bgOutline) ∧ DrawMode.outline ≠ .xor ∧ DrawMode.fill ≠ .xor ∧
    DrawMode.bgOutline ≠ .xor ∧ MemWf drawn.fb :=
  ⟨.vline _ _ _ _ _, .hline _ _ _ _, .sdraw _ _ _, by decide, by decide, by decide, by decide⟩

/-- Two states with the diamond's registers whose pictures differ in a pixel of the reach. -/
theorem witness_OtherModesIgnoreThePriorPicture :
    Draws .outline (.sdraw 8 16 .outline) ∧ DrawMode.outline ≠ .xor ∧ MemWf drawn.fb ∧ MemWf diamond.fb ∧
    SameBoundary drawn diamond ∧ commandReaches drawn (.sdraw 8 16 .outline) 12 12 = true ∧
    pixelOf drawn.fb 12 12 ≠ pixelOf diamond.fb 12 12 :=
  ⟨.sdraw _ _ _, by decide, by decide, by decide, ⟨rfl, rfl⟩, by decide +kernel, by decide +kernel⟩

theorem witness_CommandsStayInTheirReach :
    MemWf drawn.fb ∧ commandReaches drawn (.vline 3 3 2 12 .fill) 4 2 = false ∧
    commandReaches drawn (.vline 3 3 2 12 .fill) 3 2 = true := by decide

theorem witness_SresetFillsTheClippedRange :
    Instr.WellFormed (.sreset (-5) 3 7 9) ∧ Instr.WellFormed (.sreset 70 100 0 39) ∧
    columns (-5) 3 = [0, 1, 2, 3] ∧ columns 70 100 = [70, 71] ∧ columns 72 80 = [] := by decide

/-- The first and last column, and the first values outside. -/
theorem witness_SwriteWritesOnePair :
    Instr.WellFormed (.swrite 0 10 14) ∧ Instr.WellFormed (.swrite 71 10 14) ∧
    Instr.WellFormed (.swrite 72 10 14) ∧ Instr.WellFormed (.swrite (-1) 10 14) ∧
    ((0 : Int) ≤ 71 ∧ (71 : Int) ≤ 71) ∧ ¬((0 : Int) ≤ 72 ∧ (72 : Int) ≤ 71) := by decide

theorem witness_SdrawDrawsTheReconstructedShape :
    MemWf drawn.fb ∧ Instr.WellFormed (.sdraw 10 14 .bgOutline) ∧ (4, DrawMode.bgOutline) ∈ tagTable := by
  decide

theorem witness_SdrawRefinesItsPixelLoop : MemWf drawn.fb := by decide

theorem witness_SdrawColumnOrderDoesNotMatter :
    MemWf drawn.fb ∧ [12, 11, 13].Perm (columns 11 13) := by decide

/-- Two states that agree on columns 9, 10 and 11 and not on column 12. -/
theorem witness_SdrawLooksOneColumnEitherSide :
    MemWf drawn.fb ∧ MemWf (writePair drawn 0 39 12).fb ∧
    (∀ n : Nat, n < 72 → n ≤ 10 + 1 → 10 ≤ n + 1 →
      upperVal drawn n = upperVal (writePair drawn 0 39 12) n ∧
      lowerVal drawn n = lowerVal (writePair drawn 0 39 12) n) ∧
    pixelOf drawn.fb 10 12 = pixelOf (writePair drawn 0 39 12).fb 10 12 ∧
    upperVal drawn 12 ≠ upperVal (writePair drawn 0 39 12) 12 := by decide +kernel

/-- The diamond draws nothing over columns it does not reach. -/
theorem witness_EmptyShapeDrawsNothing :
    (∀ x : Nat, x < 72 → (15 : Int) ≤ (x : Int) → (x : Int) ≤ 100 → lowerVal drawn x < upperVal drawn x) ∧
    columns 15 100 ≠ [] := by decide +kernel

theorem witness_FillThenBgFillClearsTheSpans :
    MemWf drawn.fb ∧ inShape drawn 10 14 12 12 = true ∧ pixelOf drawn.fb 12 12 = true ∧
    pixelOf diamond.fb 12 12 = false := by decide +kernel

theorem witness_OutlineModesAreComplementary :
    MemWf drawn.fb ∧ inShape drawn 10 14 12 12 = true := by decide +kernel

theorem witness_StepRunsTheDecodedCommand :
    (withPending [.command 0x1001000000000000000C#80]).pending = .command 0x1001000000000000000C#80 :: [] ∧
    isFaulted (withPending [.command 0x1001000000000000000C#80]) = false ∧
    decode 0x1001000000000000000C#80 = .ok (.vline 0 0 0 12 .fill) := by decide

theorem witness_FetchWordIsTheNextCommand :
    isFaulted State.reset = false ∧ decodeTableWord 80 0x1001000000000000000C = some (.vline 0 0 0 12 .fill) := by
  decide

/-- One word for each fault code. -/
theorem witness_IllegalWordTakesTheCommandFault :
    (withPending [.command 0#80]).pending = .command 0#80 :: [] ∧
    isFaulted (withPending [.command 0#80]) = false ∧ decode 0#80 = .error .opcode ∧
    decode 0x10090000000000000000#80 = .error .reserved ∧ decode 0x10070000000000000000#80 = .error .mode ∧
    decode 0x20010000000000000001#80 = .error .operand := by decide

theorem witness_FaultedBlockDiscardsEveryWord :
    isFaulted (faulted [.command 0#80]) = true ∧
    (faulted [.command 0#80]).pending = .command 0#80 :: [] := by decide

/-- Program P4: what the faulted state reads. -/
theorem test_fault_record_p4 :
    regRead (faulted []) 0 = 0x0032 ∧ regRead (faulted []) 2 = 0x1007 ∧ regRead (faulted []) 3 = 0 := by
  decide +kernel

theorem witness_ErrclrLeavesTheFaultedState :
    (faulted [.regWrite 0x001 0x0001]).pending = .regWrite 0x001 0x0001 :: [] ∧
    (0x0001 : Half).getLsbD 0 = true ∧ StateInv (withPending [.regWrite 0x001 0x0001]) ∧
    isFaulted (withPending [.regWrite 0x001 0x0001]) = false := by decide +kernel

theorem witness_OtherRegisterWritesAreIgnored :
    (withPending [.regWrite 0x100 0xFFFF]).pending = .regWrite 0x100 0xFFFF :: [] ∧ (0x100 : RegNum) ≠ 0x001 ∧
    (withPending [.regWrite 0x001 0xFFFE]).pending = .regWrite 0x001 0xFFFE :: [] ∧
    (0xFFFE : Half).getLsbD 0 = false := by decide

/-- Vector B10 and the ends of every range of the register map. -/
theorem witness_RegisterPortReadsTheMap :
    (withPending [.regRead 0x1C7]).pending = .regRead 0x1C7 :: [] ∧
    regRead State.reset 0x000 = 0 ∧ regRead State.reset 0x001 = 0 ∧ regRead (faulted []) 0x006 = 0 ∧
    regRead State.reset 0x007 = 0 ∧ regRead State.reset 0x0FF = 0 ∧ regRead State.reset 0x100 = 0x0028 ∧
    regRead State.reset 0x147 = 0x0028 ∧ regRead State.reset 0x148 = 0 ∧ regRead State.reset 0x17F = 0 ∧
    regRead State.reset 0x180 = 0xFFFF ∧ regRead State.reset 0x1C7 = 0xFFFF ∧ regRead State.reset 0x1C8 = 0 ∧
    regRead State.reset 0x1FF = 0 := by decide +kernel

theorem witness_HostFramebufferAccess :
    MemWf (withPending [.fbWrite 359 7]).fb ∧ statusBusy (withPending [.fbWrite 359 7]).status = false ∧
    (withPending [.fbWrite 359 7]).pending = .fbWrite 359 7 :: [] ∧
    (withPending [.fbRead 359]).pending = .fbRead 359 :: [] ∧ 359 < 360 := by decide

theorem witness_HostAccessStopsByName :
    statusBusy { withPending [.fbRead 0] with status := 0x0001 }.status = true ∧
    (withPending [.fbRead 0]).pending = .fbRead 0 :: [] ∧
    statusBusy (withPending [.fbWrite 360 7]).status = false ∧
    (withPending [.fbWrite 360 7]).pending = .fbWrite 360 7 :: [] := by decide

theorem witness_ResetInputResetsTheBlock : (faulted [.reset]).pending = .reset :: [] := by decide

theorem witness_AbandonedCommandStaysInItsReach :
    MemWf (withPending [.resetDuring 0x10010003000300020002#80]).fb ∧
    (withPending [.resetDuring 0x10010003000300020002#80]).pending =
      .resetDuring 0x10010003000300020002#80 :: [] ∧
    isFaulted (withPending [.resetDuring 0x10010003000300020002#80]) = false ∧
    decode 0x10010003000300020002#80 = .ok (.vline 3 3 2 2 .fill) ∧
    commandReaches State.reset (.vline 3 3 2 2 .fill) 4 2 = false ∧
    isFaulted (faulted [.resetDuring 0#80]) = true ∧ decode 0#80 = .error .opcode := by decide

theorem witness_StepKeepsTheInvariant :
    StateInv (faulted [.reset]) ∧ (∃ t, step (faulted [.reset]) = .next t) ∧ StateInv drawn :=
  ⟨by decide +kernel, ⟨_, rfl⟩, by decide +kernel⟩

theorem witness_OnlyAnIllegalWordSetsErr :
    isFaulted (withPending [.command 0#80]) = false ∧
    ∃ t, step (withPending [.command 0#80]) = .next t ∧ isFaulted t = true := ⟨by decide, _, rfl, by decide⟩

theorem witness_OnlyErrclrAndResetClearErr :
    isFaulted (faulted [.regWrite 0x001 1]) = true ∧
    ∃ t, step (faulted [.regWrite 0x001 1]) = .next t ∧ isFaulted t = false := ⟨by decide, _, rfl, by decide⟩

theorem witness_OnlyBoundaryCommandsAndResetWriteBoundaries :
    ∃ t, step (withPending [.command 0x4000000C000A000E0000#80]) = .next t ∧
      ¬SameBoundary (withPending [.command 0x4000000C000A000E0000#80]) t := ⟨_, rfl, by decide +kernel⟩

theorem witness_OnlyDrawsAndTheHostChangeTheFramebuffer :
    ∃ t, step (withPending [.command 0x10010003000300020002#80]) = .next t ∧
      t.fb ≠ (withPending [.command 0x10010003000300020002#80]).fb := ⟨_, rfl, by decide +kernel⟩

theorem witness_IdleBlockStays : State.reset.pending = [] := rfl

theorem witness_LegalProgramsRunToTheirEnd :
    (∀ i ∈ [Instr.swrite 12 10 14, Instr.sdraw 10 14 .fill], i.WellFormed) ∧
    isFaulted (withPending [.command (encode (.swrite 12 10 14)), .command (encode (.sdraw 10 14 .fill))]) = false ∧
    statusBusy State.reset.status = false ∧
    (withPending [.command (encode (.swrite 12 10 14)), .command (encode (.sdraw 10 14 .fill))]).pending =
      [Instr.swrite 12 10 14, Instr.sdraw 10 14 .fill].map (fun i => HostAction.command (encode i)) := by
  decide +kernel

theorem witness_IllegalWordEndsThePicture :
    isFaulted (withPending [.command 0#80, .command 0x10010000000000000000#80]) = false ∧
    decode 0#80 = .error .opcode ∧
    (withPending [.command 0#80, .command 0x10010000000000000000#80]).pending =
      .command 0#80 :: [0x10010000000000000000#80].map HostAction.command := by decide

theorem witness_AssembledWordsAreLegal :
    assembleWords "RECT_OUTLINE 5,7,6,8,xor".toList =
      some [0x10050005000500070008#80, 0x10050006000600070008#80] := by decide +kernel

theorem witness_PixelDrawsOnePixel : MemWf drawn.fb := by decide

/-- Rectangles one, two and three columns wide, one of them partly off screen. -/
theorem witness_RectOutlineXorTogglesThePerimeterOnce :
    ((5 : Int) ≤ 5 ∧ (7 : Int) ≤ 7 ∧ (-1 : Int) ≤ 1) ∧ MemWf drawn.fb ∧
    (expandRectOutline 5 7 5 7 .xor).length = 1 ∧ (expandRectOutline 5 7 6 8 .xor).length = 2 ∧
    (expandRectOutline (-1) 7 1 9 .xor).length = 4 := by decide

theorem witness_RectDrawsInteriorAndPerimeter :
    ((10 : Int) ≤ 20 ∧ (10 : Int) ≤ 20) ∧ MemWf drawn.fb := by decide

end Sys2Proof.Tests
end

section
/-! SUPPORT. A list of legal commands as a run: the word of a command decodes to it, a command neither reads
nor changes the host's list, and a run over the words is the left fold of the commands. -/

namespace Sys2Proof

/-- The decoder reads back the word of every well-formed command (30_encoding.md R60 to R63, R68). -/
theorem decode_encode {i : Instr} (h : i.WellFormed) : decode (encode i) = .ok i := by
  cases i with simp only [Instr.WellFormed, Instr.wellFormed, Bool.and_eq_true] at h
  | vline x1 x2 y1 y2 m =>
    simp [decode, encode, opcodeDefined, decodeFields, withDrawMode, sext16_half16, h]
  | hline y x1 x2 m =>
    simp [decode, encode, opcodeDefined, decodeFields, withDrawMode, unusedZero, sext16_half16, h]
  | sreset x1 x2 u l =>
    simp [decode, encode, opcodeDefined, decodeFields, withoutMode, sext16_half16, h]
  | swrite x u l =>
    simp [decode, encode, opcodeDefined, decodeFields, withoutMode, unusedZero, sext16_half16, h]
  | sdraw x1 x2 m =>
    simp [decode, encode, opcodeDefined, decodeFields, withDrawMode, unusedZero, sext16_half16, h]

end Sys2Proof

namespace Sys2Proof.Machine

/-! ## Commands and the host's list (10_state.md R23) -/

theorem writePairs_setPending (s : State) (u l : Int) (xs : List Nat) (p : List HostAction) :
    writePairs { s with pending := p } u l xs = { writePairs s u l xs with pending := p } := by
  induction xs generalizing s with
  | nil => rfl
  | cons x xs ih => exact ih (writePair s u l x)

/-- A command answers a next state with `STATUS` and the host's list as they were. -/
theorem exec_next (i : Instr) (s : State) :
    ∃ t, exec i s = .next t ∧ t.status = s.status ∧ t.pending = s.pending := by
  rcases exec_cases i s with h | ⟨-, u, l, xs, h⟩
  · exact ⟨_, h, rfl, rfl⟩
  · obtain ⟨-, hstatus, -, hpending, -, -⟩ := writePairs_frame s u l xs
    exact ⟨_, h, hstatus, hpending⟩

/-- A command does the same whatever the host is still to present. -/
theorem exec_setPending {i : Instr} {s t : State} (h : exec i s = .next t) (p : List HostAction) :
    exec i { s with pending := p } = .next { t with pending := p } := by
  cases i with
  | vline => cases h; rfl
  | hline => cases h; rfl
  | sreset x1 x2 u l =>
    cases h
    exact congrArg _ (writePairs_setPending s u l (columns x1 x2) p)
  | swrite x u l =>
    cases h
    simp only [exec, execSwrite]
    split <;> rfl
  | sdraw => cases h; rfl

/-! ## One step, and a run -/

/-- The step of a legal command's word, presented to a block that is not faulted, is the command's meaning
(20_memory.md R48). -/
theorem step_of_pending_encode {i : Instr} {s : State} {rest : List HostAction} (hi : i.WellFormed)
    (hs : isFaulted s = false) (hp : s.pending = .command (encode i) :: rest) :
    step s = exec i { s with pending := rest } := by
  have hs' : isFaulted { s with pending := rest } = false := hs
  simp [step_of_pending hp, hostAct, acceptCommand, hs', decode_encode hi]

theorem core_run_succ {s t : State} (h : step s = .next t) (k : Nat) :
    core.run (k + 1) s = core.run k t := by
  have hstep : core.step s = .next t := h
  simp only [Host.Core.run, hstep]

/-- The left fold of a list of commands answers a next state with `STATUS` and the host's list as they
were. -/
theorem execAll_next (is : List Instr) (s : State) :
    ∃ t, execAll is s = .next t ∧ t.status = s.status ∧ t.pending = s.pending := by
  induction is generalizing s with
  | nil => exact ⟨s, rfl, rfl, rfl⟩
  | cons i is ih =>
    obtain ⟨t, hexec, hstatus, hpending⟩ := exec_next i s
    obtain ⟨t', hfold, hstatus', hpending'⟩ := ih t
    exact ⟨t', by simpa only [execAll, hexec] using hfold, hstatus'.trans hstatus,
      hpending'.trans hpending⟩

/-- The host's actions that present the words of a list of commands, first to last. -/
def presentAll (is : List Instr) : List HostAction := is.map fun i => .command (encode i)

/-- A run over the words of a list of legal commands, one step for each, is the left fold of the commands
(00_scope.md R14, 70_reset_and_hazards.md R192). -/
theorem core_run_presentAll {is : List Instr} {s : State} (his : ∀ i ∈ is, i.WellFormed)
    (hs : isFaulted s = false) (hp : s.pending = presentAll is) :
    core.run is.length s = execAll is { s with pending := [] } := by
  induction is generalizing s with
  | nil =>
    have hempty : s.pending = [] := hp
    rw [← hempty]
    rfl
  | cons i is ih =>
    obtain ⟨hi, his⟩ := List.forall_mem_cons.mp his
    obtain ⟨t, hexec, hstatus, -⟩ := exec_next i s
    have ht : isFaulted t = false := by rw [isFaulted, hstatus]; exact hs
    have hstep : step s = .next { t with pending := presentAll is } :=
      (step_of_pending_encode hi hs hp).trans (exec_setPending hexec _)
    have hfold : execAll (i :: is) { s with pending := [] } = execAll is { t with pending := [] } := by
      simp only [execAll, exec_setPending hexec []]
    have hrun : core.run is.length { t with pending := presentAll is } =
        execAll is { t with pending := [] } := ih his ht rfl
    exact (core_run_succ hstep is.length).trans (hrun.trans hfold.symm)

/-- Settles O47: the run is the left fold of the commands, by induction on the list, and the fold keeps
`STATUS` and the empty list it starts from. -/
theorem legalProgramsRunToTheirEnd : Obligations.LegalProgramsRunToTheirEnd := by
  intro is s his hfault hbusy hpending
  obtain ⟨t, hfold, hstatus, hempty⟩ := execAll_next is { s with pending := [] }
  have hstatus : t.status = s.status := hstatus
  have hrun : core.run is.length s = .next t := (core_run_presentAll his hfault hpending).trans hfold
  have hidle : statusBusy t.status = false := hstatus ▸ hbusy
  have hclean : isFaulted t = false := by rw [isFaulted, hstatus]; exact hfault
  exact ⟨t, hrun, hfold, hempty, hidle, hclean⟩

end Sys2Proof.Machine
end

section
/-! SUPPORT. The registers and the whole machine: what each command may write, what a read and a write of
each register number do, what one step may do to the block, and from these who can change `STATUS.ERR`, a
boundary register and the framebuffer. -/

namespace Sys2Proof.Machine

open Sys2Proof.Statements

/-! ## What a command may write (10_state.md R29) -/

/-- A command writes no control register and leaves the host's side alone. -/
theorem exec_control (i : Instr) (s : State) : ∃ t, exec i s = .next t ∧ SameControl s t ∧ SameHost s t := by
  rcases exec_cases i s with hdraw | ⟨-, u, l, xs, hwrite⟩
  · exact ⟨_, hdraw, ⟨rfl, rfl⟩, rfl, rfl, rfl⟩
  · obtain ⟨-, hstatus, herr, hpending, hreplies, hfree⟩ := writePairs_frame s u l xs
    exact ⟨_, hwrite, ⟨hstatus, herr⟩, hpending, hreplies, hfree⟩

theorem sameControl_of_exec {i : Instr} {s t : State} (h : exec i s = .next t) : SameControl s t := by
  obtain ⟨t', hexec, hcontrol, -⟩ := exec_control i s
  obtain rfl : t = t' := Host.Outcome.next.inj (h.symm.trans hexec)
  exact hcontrol

/-- The only commands that write boundary registers are `SRESET` and `SWRITE` (10_state.md R20). -/
theorem boundary_of_exec {i : Instr} {s t : State} (h : exec i s = .next t) :
    SameBoundary s t ∨ (∃ x1 x2 u l, i = .sreset x1 x2 u l) ∨ ∃ x u l, i = .swrite x u l := by
  cases i with
  | vline | hline | sdraw =>
    cases h
    exact Or.inl ⟨rfl, rfl⟩
  | sreset x1 x2 u l => exact Or.inr (Or.inl ⟨x1, x2, u, l, rfl⟩)
  | swrite x u l => exact Or.inr (Or.inr ⟨x, u, l, rfl⟩)

/-- The only commands that write the framebuffer are the drawing commands. -/
theorem fb_of_exec {i : Instr} {s t : State} (h : exec i s = .next t) : t.fb = s.fb ∨ ∃ mode, Draws mode i := by
  cases i with
  | vline => exact Or.inr ⟨_, .vline ..⟩
  | hline => exact Or.inr ⟨_, .hline ..⟩
  | sdraw => exact Or.inr ⟨_, .sdraw ..⟩
  | sreset x1 x2 u l =>
    cases h
    exact Or.inl (writePairs_frame s u l (columns x1 x2)).1
  | swrite x u l =>
    cases h
    left
    split <;> rfl

/-! ## The faulted state (60_exceptions.md R164) -/

theorem isFaulted_congr {s t : State} (h : SameControl s t) : isFaulted t = isFaulted s := by
  rw [isFaulted, isFaulted, h.1]

@[simp] theorem isFaulted_leaveCommandFault (s : State) : isFaulted (leaveCommandFault s) = false := by
  simp [isFaulted]

@[simp] theorem isFaulted_blockReset (s : State) : isFaulted (blockReset s) = false := by
  simp [isFaulted, statusErr]

@[simp] theorem isFaulted_abandonCommand (s : State) (os : List ByteOp) :
    isFaulted (abandonCommand s os) = false := by simp [isFaulted, statusErr]

@[simp] theorem isFaulted_reset : isFaulted State.reset = false := rfl

/-! ## The register map (10_state.md R28) -/

section RegisterMap

variable (s : State) {n : RegNum}

theorem regRead_status (h : n.toNat = 0x000) : regRead s n = statusRead s.status := by
  simp [regRead, h]

theorem regRead_ctrl (h : n.toNat = 0x001) : regRead s n = 0 := by
  simp [regRead, h]

theorem regRead_errCmd {k : Nat} (hk : k < 5) (h : n.toNat = 0x002 + k) : regRead s n = s.errCmd[k] := by
  simp only [regRead, h]
  rw [if_neg (by omega), if_neg (by omega), if_pos (by omega), Nat.add_sub_cancel_left,
    Vector.getElem?_eq_getElem hk, Option.getD_some]

theorem regRead_upper {x : Nat} (hx : x < 72) (h : n.toNat = 0x100 + x) : regRead s n = s.upper[x] := by
  simp only [regRead, h]
  rw [if_neg (by omega), if_neg (by omega), if_neg (by omega), if_neg (by omega), if_pos (by omega),
    Nat.add_sub_cancel_left, upperRaw, Vector.getElem?_eq_getElem hx, Option.getD_some]

theorem regRead_lower {x : Nat} (hx : x < 72) (h : n.toNat = 0x180 + x) : regRead s n = s.lower[x] := by
  simp only [regRead, h]
  rw [if_neg (by omega), if_neg (by omega), if_neg (by omega), if_neg (by omega), if_neg (by omega),
    if_neg (by omega), if_pos (by omega), Nat.add_sub_cancel_left, lowerRaw, Vector.getElem?_eq_getElem hx,
    Option.getD_some]

/-- A number between the register files, or above the last, reads 0. -/
theorem regRead_unassigned (h : (0x007 ≤ n.toNat ∧ n.toNat ≤ 0x0FF) ∨ (0x148 ≤ n.toNat ∧ n.toNat ≤ 0x17F) ∨
    0x1C8 ≤ n.toNat) : regRead s n = 0 := by
  rw [regRead, if_neg (by omega), if_neg (by omega), if_neg (by omega)]
  rcases h with ⟨-, hhi⟩ | ⟨hlo, hhi⟩ | hlo
  · exact if_pos (by omega)
  · rw [if_neg (by omega), if_neg (by omega)]
    exact if_pos (by omega)
  · rw [if_neg (by omega), if_neg (by omega), if_neg (by omega)]
    exact if_neg (by omega)

end RegisterMap

/-- The fields of `STATUS` read as they are, the reserved bits as 0 (10_state.md R24). -/
theorem statusRead_lane (st : Half) {k : Nat} (hk : k < 16) :
    (statusRead st).getLsbD k = (decide (k = 0 ∨ k = 1 ∨ (4 ≤ k ∧ k < 8)) && st.getLsbD k) := by
  rw [statusRead, BitVec.getLsbD_and]
  interval_cases k <;> simp

/-- Writing 1 to bit 0 of `CTRL` acknowledges the fault (10_state.md R25). -/
theorem regWrite_ctrl {v : Half} (s : State) (hv : v.getLsbD 0 = true) :
    regWrite s 0x001 v = leaveCommandFault s := if_pos ⟨rfl, hv⟩

/-- No other register write does anything (10_state.md R24, R25, R28). -/
theorem regWrite_ignored {n : RegNum} {v : Half} (s : State) (h : n ≠ 0x001 ∨ v.getLsbD 0 = false) :
    regWrite s n v = s := by
  refine if_neg ?_
  rintro ⟨hn, hv⟩
  rcases h with h | h
  · exact h hn
  · exact Bool.false_ne_true (h.symm.trans hv)

/-! ## What one step may do to the block -/

/-- What one step may do to the block: nothing, or one of the six things that write some of its state, each
with the host's action that caused it. -/
inductive StepEffect (s t : State) : Prop where
  /-- No action, a read, an ignored register write, a discarded word. -/
  | unchanged (hb : SameBoundary s t) (hc : SameControl s t) (hfb : t.fb = s.fb)
  /-- A legal word is executed (20_memory.md R48). -/
  | executed (cw : CmdWord) (rest : List HostAction) (i : Instr) (hp : s.pending = .command cw :: rest)
      (hf : isFaulted s = false) (hd : decode cw = .ok i) (ht : exec i { s with pending := rest } = .next t)
  /-- An illegal word is recorded (60_exceptions.md R163). -/
  | faulted (cw : CmdWord) (rest : List HostAction) (e : CmdError) (hp : s.pending = .command cw :: rest)
      (hf : isFaulted s = false) (hd : decode cw = .error e)
      (ht : t = takeCommandFault e cw { s with pending := rest })
  /-- The host acknowledges the fault (60_exceptions.md R165). -/
  | acknowledged (v : Half) (rest : List HostAction) (hp : s.pending = .regWrite 0x001 v :: rest)
      (hv : v.getLsbD 0 = true) (ht : t = leaveCommandFault { s with pending := rest })
  /-- The host writes a framebuffer byte (20_memory.md R51). -/
  | fbWritten (a : Nat) (v : Byte) (rest : List HostAction) (hp : s.pending = .fbWrite a v :: rest)
      (ha : a < Config.fbBytes) (ht : t = { s with pending := rest, fb := memWrite s.fb a v })
  /-- Reset between commands (70_reset_and_hazards.md R180). -/
  | reset (rest : List HostAction) (hp : s.pending = .reset :: rest)
      (ht : t = blockReset { s with pending := rest })
  /-- Reset while a command executes (70_reset_and_hazards.md R181). -/
  | abandoned (cw : CmdWord) (rest : List HostAction) (hp : s.pending = .resetDuring cw :: rest)
      (ht : t = abandonCommand { s with pending := rest } (wordOps { s with pending := rest } cw))

theorem StepEffect.of_eq_pending {s t : State} {rest : List HostAction} (h : t = { s with pending := rest }) :
    StepEffect s t := by
  subst h
  exact .unchanged ⟨rfl, rfl⟩ ⟨rfl, rfl⟩ rfl

/-- The inversion of the step: every step has one of the effects. -/
theorem step_effect {s t : State} (h : step s = .next t) : StepEffect s t := by
  rcases step_cases h with ⟨-, rfl⟩ | ⟨a, rest, hp, hact⟩
  · exact .of_eq_pending (rest := t.pending) rfl
  cases a with
  | command cw =>
    rcases acceptCommand_cases hact with ⟨-, ht⟩ | ⟨hf, i, hd, ht⟩ | ⟨hf, e, hd, ht⟩
    · exact .of_eq_pending ht
    · exact .executed cw rest i hp hf hd ht
    · exact .faulted cw rest e hp hf hd ht
  | regWrite n v =>
    obtain rfl := Host.Outcome.next.inj hact
    by_cases hack : n = 0x001 ∧ v.getLsbD 0 = true
    · obtain ⟨rfl, hv⟩ := hack
      exact .acknowledged v rest hp hv (regWrite_ctrl _ hv)
    · exact .of_eq_pending (regWrite_ignored _ ((not_and_or.mp hack).imp_right Bool.eq_false_of_not_eq_true))
  | regRead n =>
    obtain rfl := Host.Outcome.next.inj hact
    exact .unchanged ⟨rfl, rfl⟩ ⟨rfl, rfl⟩ rfl
  | fbWrite a v =>
    obtain ⟨-, ha, ht⟩ := hostFbAccess_cases hact
    exact .fbWritten a v rest hp ha ht
  | fbRead a =>
    obtain ⟨-, -, rfl⟩ := hostFbAccess_cases hact
    exact .unchanged ⟨rfl, rfl⟩ ⟨rfl, rfl⟩ rfl
  | reset => exact .reset rest hp (Host.Outcome.next.inj hact).symm
  | resetDuring cw => exact .abandoned cw rest hp (Host.Outcome.next.inj hact).symm

/-- A legal word on the command port of a block that is not faulted is executed (30_encoding.md R68). -/
theorem step_of_pending_decode {s : State} {cw : CmdWord} {rest : List HostAction} {i : Instr}
    (hp : s.pending = .command cw :: rest) (hs : isFaulted s = false) (hd : decode cw = .ok i) :
    step s = exec i { s with pending := rest } := by
  have hs' : isFaulted { s with pending := rest } = false := hs
  simp [step_of_pending hp, hostAct, acceptCommand, hs', hd]

theorem decode_of_decodeTableWord {nbits w : Nat} {i : Instr} (h : decodeTableWord nbits w = some i) :
    decode (tableWord nbits w) = .ok i := by
  unfold decodeTableWord at h
  split at h
  · next j hj => rw [hj, Option.some.inj h]
  · cases h

/-! ## The reset state and the invariant (10_state.md R31) -/

theorem upperVal_reset {x : Nat} (hx : x < 72) : upperVal State.reset x = 40 := by
  have hraw : upperRaw State.reset x = half16 Config.upperEmpty := by
    simp [upperRaw, State.reset, hx]
  rw [upperVal, hraw]
  exact sext16_half16 (by decide)

theorem lowerVal_reset {x : Nat} (hx : x < 72) : lowerVal State.reset x = -1 := by
  have hraw : lowerRaw State.reset x = half16 Config.lowerEmpty := by
    simp [lowerRaw, State.reset, hx]
  rw [lowerVal, hraw]
  exact sext16_half16 (by decide)

theorem stateInv_iff {s : State} :
    StateInv s ↔ MemWf s.fb ∧ statusQuiet s = true ∧ faultRecordOk s = true := by
  simp only [StateInv, stateInv, Bool.and_eq_true, and_assoc]

/-- The fault record of a block that is not faulted is empty (10_state.md R24, R27). -/
theorem faultRecordOk_iff_of_not_faulted {s : State} (h : isFaulted s = false) :
    faultRecordOk s = true ↔ statusErrCode s.status = 0 ∧ s.errCmd = Vector.replicate 5 0 := by
  simp [faultRecordOk, h]

/-! ## The obligations -/

/-- Settles O17: what a command may write leaves the control registers and the host's side alone. -/
theorem commandsCompleteAndWriteNoFlag : Obligations.CommandsCompleteAndWriteNoFlag := exec_control

/-- Settles O34, range by range of the register map. -/
theorem registerPortReadsTheMap : Obligations.RegisterPortReadsTheMap := by
  intro s n rest hp
  refine ⟨regRead s n, step_of_pending hp, ?status, regRead_ctrl s, fun _ => regRead_errCmd s, ?gap,
    fun _ => regRead_upper s, ?gap', fun _ => regRead_lower s, ?top⟩
  case status =>
    intro h k hk
    rw [regRead_status s h, statusRead_lane s.status hk]
  case gap => exact fun hlo hhi => regRead_unassigned s (Or.inl ⟨hlo, hhi⟩)
  case gap' => exact fun hlo hhi => regRead_unassigned s (Or.inr (Or.inl ⟨hlo, hhi⟩))
  case top => exact fun hlo _ => regRead_unassigned s (Or.inr (Or.inr hlo))

/-- Settles O42: of the effects of a step only fault entry leaves a block faulted that was not. -/
theorem onlyAnIllegalWordSetsErr : Obligations.OnlyAnIllegalWordSetsErr := by
  intro s t hstep hs ht
  cases step_effect hstep with
  | unchanged _ hc _ => exact absurd ht (by simp [isFaulted_congr hc, hs])
  | executed _ _ _ _ _ _ hexec =>
    have hc := sameControl_of_exec hexec
    have hkept : isFaulted t = isFaulted s := isFaulted_congr hc
    exact absurd ht (by simp [hkept, hs])
  | faulted cw rest e hp _ hd heq => exact ⟨cw, rest, e, hp, hd, by simp [heq]⟩
  | fbWritten _ _ _ _ _ heq =>
    have hkept : isFaulted t = isFaulted s := by rw [heq]; rfl
    exact absurd ht (by simp [hkept, hs])
  | acknowledged _ _ _ _ heq | reset _ _ heq | abandoned _ _ _ heq => exact absurd ht (by simp [heq])

/-- Settles O43: of the effects of a step only the acknowledge and the two resets leave a block not faulted
that was. -/
theorem onlyErrclrAndResetClearErr : Obligations.OnlyErrclrAndResetClearErr := by
  intro s t hstep hs ht
  cases step_effect hstep with
  | unchanged _ hc _ => exact absurd ht (by simp [isFaulted_congr hc, hs])
  | executed _ _ _ _ hf _ _ | faulted _ _ _ _ hf _ _ => exact absurd hs (by simp [hf])
  | acknowledged v rest hp hv _ => exact ⟨_, rest, hp, Or.inl ⟨v, rfl, hv⟩⟩
  | fbWritten _ _ _ _ _ heq =>
    have hkept : isFaulted t = isFaulted s := by rw [heq]; rfl
    exact absurd ht (by simp [hkept, hs])
  | reset rest hp _ => exact ⟨_, rest, hp, Or.inr (Or.inl rfl)⟩
  | abandoned cw rest hp _ => exact ⟨_, rest, hp, Or.inr (Or.inr ⟨cw, rfl⟩)⟩

/-- Settles O44: of the effects of a step only an executed boundary command and the two resets write boundary
registers. -/
theorem onlyBoundaryCommandsAndResetWriteBoundaries :
    Obligations.OnlyBoundaryCommandsAndResetWriteBoundaries := by
  intro s t hstep hchanged
  cases step_effect hstep with
  | unchanged hb _ _ => exact absurd hb hchanged
  | executed cw rest i hp hf hd hexec =>
    rcases boundary_of_exec hexec with hb | ⟨x1, x2, u, l, rfl⟩ | ⟨x, u, l, rfl⟩
    · exact absurd hb hchanged
    · exact ⟨_, rest, hp, Or.inr (Or.inr ⟨cw, rfl, hf, Or.inl ⟨x1, x2, u, l, hd⟩⟩)⟩
    · exact ⟨_, rest, hp, Or.inr (Or.inr ⟨cw, rfl, hf, Or.inr ⟨x, u, l, hd⟩⟩)⟩
  | faulted _ _ _ _ _ _ heq | acknowledged _ _ _ _ heq | fbWritten _ _ _ _ _ heq =>
    subst heq
    exact absurd ⟨rfl, rfl⟩ hchanged
  | reset rest hp _ => exact ⟨_, rest, hp, Or.inl rfl⟩
  | abandoned cw rest hp _ => exact ⟨_, rest, hp, Or.inr (Or.inl ⟨cw, rfl⟩)⟩

/-- Settles O45: of the effects of a step only an executed drawing command, a host write and a reset that
abandons a command write the framebuffer. -/
theorem onlyDrawsAndTheHostChangeTheFramebuffer : Obligations.OnlyDrawsAndTheHostChangeTheFramebuffer := by
  intro s t hstep hchanged
  cases step_effect hstep with
  | unchanged _ _ hfb => exact absurd hfb hchanged
  | executed cw rest i hp hf hd hexec =>
    rcases fb_of_exec hexec with hfb | ⟨mode, hdraws⟩
    · exact absurd hfb hchanged
    · exact ⟨_, rest, hp, Or.inr (Or.inr ⟨cw, mode, i, rfl, hf, hd, hdraws⟩)⟩
  | fbWritten a v rest hp _ _ => exact ⟨_, rest, hp, Or.inl ⟨a, v, rfl⟩⟩
  | faulted _ _ _ _ _ _ heq | acknowledged _ _ _ _ heq | reset _ _ heq =>
    exact absurd (by simp [heq]) hchanged
  | abandoned cw rest hp _ => exact ⟨_, rest, hp, Or.inr (Or.inl ⟨cw, rfl⟩)⟩

/-- Settles O29: the placed word is the next action, and without it the state is the one it was placed in. -/
theorem fetchWordIsTheNextCommand : Obligations.FetchWordIsTheNextCommand := by
  intro s nbits w i hs hi
  exact step_of_pending_decode (s := s.withFetchWord nbits w) (presentWord_pending s _) hs
    (decode_of_decodeTableWord hi)

/-- Settles O33: the ignored write leaves the block as it is. -/
theorem otherRegisterWritesAreIgnored : Obligations.OtherRegisterWritesAreIgnored := by
  intro s n v rest hp hignored
  have hsame := regWrite_ignored { s with pending := rest } hignored
  exact (step_of_pending hp).trans (congrArg _ hsame)

/-- Settles O38: the columns hold the empty pair (40, −1), and the control registers are 0. -/
theorem resetStateHoldsTheResetValues : Obligations.ResetStateHoldsTheResetValues := by
  refine ⟨fun x hx => ⟨upperVal_reset hx, lowerVal_reset hx, ?_⟩, reset_status, fun k hk => ?_⟩
  · simp [columnEmpty, upperVal_reset hx, lowerVal_reset hx]
  · simp only [reset_errCmd, Vector.getElem_replicate]

/-- Settles O40: the three parts of the invariant, the fault record being the empty one. -/
theorem invariantHoldsAtReset : Obligations.InvariantHoldsAtReset := by
  have hquiet : statusQuiet State.reset = true := by simp [statusQuiet]
  have hrecord : faultRecordOk State.reset = true :=
    (faultRecordOk_iff_of_not_faulted isFaulted_reset).mpr ⟨rfl, reset_errCmd⟩
  exact stateInv_iff.mpr ⟨memWf_reset, hquiet, hrecord⟩

end Sys2Proof.Machine
end

section
/-! SUPPORT. The framebuffer and the invariant: where a pixel lies, what a host access answers and writes,
and the three parts of the invariant (canonical framebuffer, quiet `STATUS`, true fault record), each kept by
every effect a step can have. -/

namespace Sys2Proof.Machine

/-! ## The host's framebuffer access (20_memory.md R46, R51) -/

theorem hostFbAccess_next {s : State} {a : Nat} (k : State) (hb : statusBusy s.status = false)
    (ha : a < Config.fbBytes) : hostFbAccess s a k = .next k := by
  simp [hostFbAccess, hb, ha]

theorem hostFbAccess_busy {s : State} (a : Nat) (k : State) (hb : statusBusy s.status = true) :
    hostFbAccess s a k = .refused .framebufferInUse := if_pos hb

theorem hostFbAccess_outside {s : State} {a : Nat} (k : State) (hb : statusBusy s.status = false)
    (ha : Config.fbBytes ≤ a) : hostFbAccess s a k = .fault (.noSuchAddress a) := by
  simp [hostFbAccess, hb, Nat.not_lt.mpr ha]

/-- A host's write and a host's read are the same access, each with a next state of its own. -/
theorem step_of_pending_fbAccess {s : State} {a : Nat} {v : Byte} {rest : List HostAction}
    (hp : s.pending = .fbWrite a v :: rest ∨ s.pending = .fbRead a :: rest) :
    ∃ k, step s = hostFbAccess { s with pending := rest } a k :=
  hp.elim (fun h => ⟨_, step_of_pending h⟩) fun h => ⟨_, step_of_pending h⟩

/-! ## Commands keep the canonical framebuffer (20_memory.md R46) -/

theorem memWf_of_exec {i : Instr} {s t : State} (hm : MemWf s.fb) (h : exec i s = .next t) : MemWf t.fb := by
  rcases exec_cases i s with hdraw | ⟨-, u, l, xs, hwrite⟩
  · obtain rfl := Host.Outcome.next.inj (hdraw.symm.trans h)
    exact memWf_byteOpsRun hm (commandOps_addr s i)
  · obtain rfl := Host.Outcome.next.inj (hwrite.symm.trans h)
    obtain ⟨hfb, -⟩ := writePairs_frame s u l xs
    rwa [hfb]

theorem memWf_abandonCommand {s : State} (hm : MemWf s.fb) (cw : CmdWord) :
    MemWf (abandonCommand s (wordOps s cw)).fb :=
  memWf_byteOpsRun hm (abandonedOps_addr (wordOps_addr s cw))

/-! ## The quiet `STATUS` (10_state.md R24) -/

theorem statusQuiet_iff {s : State} : statusQuiet s = true ↔ s.status &&& 0xFF0D#16 = 0 := decide_eq_true_iff

/-- Writing `ERR` and `ERRCODE` writes neither `BUSY` nor a reserved bit. -/
theorem statusQuiet_of_statusWithErr {s t : State} {err : Bool} {code : BitVec 4}
    (hs : statusQuiet s = true) (ht : t.status = statusWithErr s.status err code) : statusQuiet t = true := by
  rw [statusQuiet_iff] at hs ⊢
  rw [ht, statusWithErr_kept, hs]

/-! ## The fault record (60_exceptions.md R161, R164) -/

/-- The fault record of a faulted block holds a word the decoder rejects, with its cause. -/
theorem faultRecordOk_iff_of_faulted {s : State} (h : isFaulted s = true) :
    faultRecordOk s = true ↔
      ∃ e, decode (errCmdWord s) = .error e ∧ statusErrCode s.status = e.code := by
  cases hd : decode (errCmdWord s) <;> simp [faultRecordOk, h, hd]

/-- Fault entry records the rejected word with its cause (60_exceptions.md R163). -/
theorem faultRecordOk_takeCommandFault {e : CmdError} {cw : CmdWord} (s : State)
    (hd : decode cw = .error e) : faultRecordOk (takeCommandFault e cw s) = true := by
  have hfaulted : isFaulted (takeCommandFault e cw s) = true := by simp [isFaulted]
  have hword : errCmdWord (takeCommandFault e cw s) = cw :=
    errCmdWord_of_halves (takeCommandFault_errCmd e cw s)
  exact (faultRecordOk_iff_of_faulted hfaulted).mpr ⟨e, by rw [hword, hd], by simp⟩

theorem errCmdWord_congr {s t : State} (hc : SameControl s t) : errCmdWord t = errCmdWord s := by
  simp only [errCmdWord, hc.2]

/-- The fault record is in the control registers. -/
theorem faultRecordOk_of_sameControl {s t : State} (hc : SameControl s t) (h : faultRecordOk s = true) :
    faultRecordOk t = true := by
  have hkept : isFaulted t = isFaulted s := isFaulted_congr hc
  cases hs : isFaulted s with
  | true =>
    rw [faultRecordOk_iff_of_faulted (hkept.trans hs), errCmdWord_congr hc, hc.1]
    exact (faultRecordOk_iff_of_faulted hs).mp h
  | false =>
    rw [faultRecordOk_iff_of_not_faulted (hkept.trans hs), hc.1, hc.2]
    exact (faultRecordOk_iff_of_not_faulted hs).mp h

/-! ## The invariant, kept in three ways -/

/-- The control registers are as they were, and the framebuffer is canonical still. -/
theorem stateInv_of_sameControl {s t : State} (hs : StateInv s) (hc : SameControl s t) (hm : MemWf t.fb) :
    StateInv t := by
  obtain ⟨-, hquiet, hrecord⟩ := stateInv_iff.mp hs
  have hquiet' : statusQuiet t = true := by rwa [statusQuiet, hc.1]
  exact stateInv_iff.mpr ⟨hm, hquiet', faultRecordOk_of_sameControl hc hrecord⟩

/-- Fault entry: the record is that of the rejected word. -/
theorem stateInv_takeCommandFault {s : State} {e : CmdError} {cw : CmdWord} (hs : StateInv s)
    (hd : decode cw = .error e) : StateInv (takeCommandFault e cw s) := by
  obtain ⟨hm, hquiet, -⟩ := stateInv_iff.mp hs
  exact stateInv_iff.mpr ⟨hm, statusQuiet_of_statusWithErr hquiet (takeCommandFault_status e cw s),
    faultRecordOk_takeCommandFault s hd⟩

/-- Fault return: the record is empty. -/
theorem stateInv_leaveCommandFault {s : State} (hs : StateInv s) : StateInv (leaveCommandFault s) := by
  obtain ⟨hm, hquiet, -⟩ := stateInv_iff.mp hs
  have hrecord : faultRecordOk (leaveCommandFault s) = true :=
    (faultRecordOk_iff_of_not_faulted (isFaulted_leaveCommandFault s)).mpr ⟨by simp, by simp⟩
  exact stateInv_iff.mpr
    ⟨hm, statusQuiet_of_statusWithErr hquiet (leaveCommandFault_status s), hrecord⟩

/-- The control registers are those of the reset state, and the framebuffer is canonical. -/
theorem stateInv_of_resetControl {t : State} (hc : SameControl State.reset t) (hm : MemWf t.fb) : StateInv t :=
  stateInv_of_sameControl invariantHoldsAtReset hc hm

/-! ## The obligations -/

/-- Settles O41, effect by effect of the step: the control registers are as they were, those of a fault
entry or return, or those of reset, and every framebuffer write is at an address of the framebuffer. -/
theorem stepKeepsTheInvariant : Obligations.StepKeepsTheInvariant := by
  intro s t hs hstep
  obtain ⟨hm, -, -⟩ := stateInv_iff.mp hs
  cases step_effect hstep with
  | unchanged _ hc hfb => exact stateInv_of_sameControl hs hc (hfb ▸ hm)
  | executed cw rest i _ _ _ hexec =>
    have hc : SameControl { s with pending := rest } t := sameControl_of_exec hexec
    have hm' : MemWf { s with pending := rest }.fb := hm
    exact stateInv_of_sameControl hs hc (memWf_of_exec hm' hexec)
  | faulted cw rest e _ _ hd ht =>
    have hs' : StateInv { s with pending := rest } := hs
    exact ht ▸ stateInv_takeCommandFault hs' hd
  | acknowledged v rest _ _ ht =>
    have hs' : StateInv { s with pending := rest } := hs
    exact ht ▸ stateInv_leaveCommandFault hs'
  | fbWritten a v rest _ ha ht =>
    subst ht
    exact stateInv_of_sameControl hs ⟨rfl, rfl⟩ (memWf_memWrite hm v ha)
  | reset rest _ ht =>
    subst ht
    exact stateInv_of_resetControl ⟨rfl, rfl⟩ hm
  | abandoned cw rest _ ht =>
    subst ht
    exact stateInv_of_resetControl ⟨rfl, rfl⟩ (memWf_abandonCommand hm cw)

/-- Settles O5: the places are on the framebuffer, and every place is that of one pixel. -/
theorem pixelPlacesAreOneToOne : Obligations.PixelPlacesAreOneToOne := by
  refine ⟨fun x y hx hy => ⟨rfl, fbAddr_lt hx hy, rfl⟩, fun a i ha hi => ?_⟩
  obtain ⟨x, y, hx, hy, rfl, rfl⟩ := fbPlace_surj ha hi
  exact ⟨x, y, ⟨hx, hy, rfl, rfl⟩, fun x' y' hx' _ haddr hbit => fbPlace_inj hx' hx haddr hbit⟩

/-- Settles O35: the access is admitted, and what it writes is one byte of the framebuffer. -/
theorem hostFramebufferAccess : Obligations.HostFramebufferAccess := by
  intro s a v rest hm hb ha
  refine ⟨fun hwrite => ?_, fun hread => ?_⟩
  · exact ⟨_, (step_of_pending hwrite).trans (hostFbAccess_next _ hb ha), memRead_memWrite_same hm a v,
      fun _ hne => memRead_memWrite_other v hne, memWf_memWrite hm v ha, ⟨rfl, rfl⟩, ⟨rfl, rfl⟩, rfl, rfl, rfl⟩
  · exact (step_of_pending hread).trans (hostFbAccess_next _ hb ha)

/-- Settles O28: the command port executes what it decodes. -/
theorem stepRunsTheDecodedCommand : Obligations.StepRunsTheDecodedCommand :=
  fun _ _ _ _ hp hs hd => step_of_pending_decode hp hs hd

/-- Settles O36: both accesses stop before their next state matters. -/
theorem hostAccessStopsByName : Obligations.HostAccessStopsByName := by
  intro s a v rest hp
  obtain ⟨k, hstep⟩ := step_of_pending_fbAccess hp
  exact ⟨fun hb => hstep.trans (hostFbAccess_busy a k hb),
    fun hb ha => hstep.trans (hostFbAccess_outside k hb ha)⟩

end Sys2Proof.Machine
end

section
/-! SUPPORT. The command encoding (30_encoding.md): what each check of the decoder answers, its fields as
numbers, the word put together again from its fields, and the lines the assembler accepts. -/

namespace Sys2Proof

open Sys2Proof.Statements

variable {cw : CmdWord}

/-! ## The fields as numbers (30_encoding.md R60 to R62) -/

theorem opcodeField_toNat (cw : CmdWord) : (opcodeField cw).toNat = opcodeNumber cw := by
  have hlt : cw.toNat < 2 ^ 80 := cw.isLt
  rw [opcodeField, BitVec.extractLsb'_toNat, Nat.shiftRight_eq_div_pow, opcodeNumber]
  omega

theorem rsvField_toNat (cw : CmdWord) : (rsvField cw).toNat = reservedNumber cw := by
  rw [rsvField, BitVec.extractLsb'_toNat, Nat.shiftRight_eq_div_pow, reservedNumber]

theorem modeField_toNat (cw : CmdWord) : (modeField cw).toNat = modeNumber cw := by
  rw [modeField, BitVec.extractLsb'_toNat, Nat.shiftRight_eq_div_pow, modeNumber]

/-- The two's complement reading of 16 bits of a word is its arithmetic one (00_scope.md R9). -/
theorem sext16_extractLsb' (cw : CmdWord) (lo : Nat) : sext16 (cw.extractLsb' lo 16) = operandValue cw lo := by
  rw [sext16, BitVec.toInt_eq_toNat_cond, BitVec.extractLsb'_toNat, Nat.shiftRight_eq_div_pow]
  simp only [operandValue]
  split <;> split <;> omega

theorem sext16_halfA (cw : CmdWord) : sext16 (halfA cw) = operandValue cw 48 := sext16_extractLsb' cw 48
theorem sext16_halfB (cw : CmdWord) : sext16 (halfB cw) = operandValue cw 32 := sext16_extractLsb' cw 32
theorem sext16_halfC (cw : CmdWord) : sext16 (halfC cw) = operandValue cw 16 := sext16_extractLsb' cw 16
theorem sext16_halfD (cw : CmdWord) : sext16 (halfD cw) = operandValue cw 0 := sext16_extractLsb' cw 0

theorem sext16_eq_zero_iff {h : Half} : sext16 h = 0 ↔ h = 0 :=
  BitVec.toInt_inj (y := 0)

/-! ## The check of each field (30_encoding.md R63 to R66) -/

theorem opcodeDefined_iff :
    opcodeDefined cw = true ↔ 1 ≤ (opcodeField cw).toNat ∧ (opcodeField cw).toNat ≤ 5 := by
  rw [opcodeDefined, Bool.and_eq_true, decide_eq_true_iff, decide_eq_true_iff]

theorem drawModeOfTag_of_mem_tagTable {t : BitVec 3} {tm : Nat × DrawMode} (htm : tm ∈ tagTable)
    (ht : t.toNat = tm.1) : drawModeOfTag t = some tm.2 := by
  revert tm t; decide

theorem drawModeOfTag_eq_none {t : BitVec 3} (ht : ¬(1 ≤ t.toNat ∧ t.toNat ≤ 5)) : drawModeOfTag t = none := by
  revert t; decide

section FieldChecks

variable {i : Instr} {m : DrawMode} {k : DrawMode → Except CmdError Instr} {r : Except CmdError Instr} {h : Half}

theorem withDrawMode_of_some (hm : drawModeOfTag (modeField cw) = some m) : withDrawMode cw k = k m := by
  rw [withDrawMode, hm]

theorem withDrawMode_of_none (hm : drawModeOfTag (modeField cw) = none) : withDrawMode cw k = .error .mode := by
  rw [withDrawMode, hm]

theorem withDrawMode_eq_ok (hk : withDrawMode cw k = .ok i) : ∃ m, modeField cw = m.tag ∧ k m = .ok i := by
  cases hm : drawModeOfTag (modeField cw) with
  | none => rw [withDrawMode_of_none hm] at hk; cases hk
  | some m => exact ⟨m, (tag_of_drawModeOfTag hm).symm, (withDrawMode_of_some hm).symm.trans hk⟩

theorem withoutMode_of_zero (hm : (modeField cw).toNat = 0) : withoutMode cw r = r :=
  if_pos (BitVec.eq_of_toNat_eq hm)

theorem withoutMode_of_ne_zero (hm : (modeField cw).toNat ≠ 0) : withoutMode cw r = .error .mode :=
  if_neg fun h0 => hm (congrArg BitVec.toNat h0)

theorem withoutMode_eq_ok (hk : withoutMode cw r = .ok i) : modeField cw = 0 ∧ r = .ok i := by
  by_cases hm : modeField cw = 0
  · exact ⟨hm, (if_pos hm).symm.trans hk⟩
  · rw [withoutMode, if_neg hm] at hk; cases hk

theorem unusedZero_of_zero (h0 : sext16 h = 0) : unusedZero h r = r := if_pos (sext16_eq_zero_iff.mp h0)

theorem unusedZero_of_ne_zero (h0 : sext16 h ≠ 0) : unusedZero h r = .error .operand :=
  if_neg fun hz => h0 (sext16_eq_zero_iff.mpr hz)

theorem unusedZero_eq_ok (hk : unusedZero h r = .ok i) : h = 0 ∧ r = .ok i := by
  by_cases h0 : h = 0
  · exact ⟨h0, (if_pos h0).symm.trans hk⟩
  · rw [unusedZero, if_neg h0] at hk; cases hk

end FieldChecks

/-! ## The decoder, one equation for each of its branches (30_encoding.md R68) -/

theorem decode_of_opcode_undefined (hop : ¬(1 ≤ (opcodeField cw).toNat ∧ (opcodeField cw).toNat ≤ 5)) :
    decode cw = .error .opcode :=
  if_pos (Bool.eq_false_iff.mpr fun hdef => hop (opcodeDefined_iff.mp hdef))

theorem decode_of_opcode_defined (hop : 1 ≤ (opcodeField cw).toNat ∧ (opcodeField cw).toNat ≤ 5) :
    decode cw = if rsvField cw ≠ 0 then .error .reserved else decodeFields cw :=
  if_neg fun hdef => Bool.false_ne_true (hdef.symm.trans (opcodeDefined_iff.mpr hop))

theorem decode_of_reserved_ne_zero (hop : 1 ≤ (opcodeField cw).toNat ∧ (opcodeField cw).toNat ≤ 5)
    (hr : (rsvField cw).toNat ≠ 0) : decode cw = .error .reserved :=
  (decode_of_opcode_defined hop).trans (if_pos fun h0 => hr (congrArg BitVec.toNat h0))

theorem decode_of_reserved_zero (hop : 1 ≤ (opcodeField cw).toNat ∧ (opcodeField cw).toNat ≤ 5)
    (hr : (rsvField cw).toNat = 0) : decode cw = decodeFields cw :=
  (decode_of_opcode_defined hop).trans (if_neg (not_not.mpr (BitVec.eq_of_toNat_eq hr)))

/-- A legal word has passed the opcode and the reserved check. -/
theorem decode_eq_ok {i : Instr} (hi : decode cw = .ok i) :
    (1 ≤ (opcodeField cw).toNat ∧ (opcodeField cw).toNat ≤ 5) ∧ rsvField cw = 0 ∧ decodeFields cw = .ok i := by
  by_cases hop : 1 ≤ (opcodeField cw).toNat ∧ (opcodeField cw).toNat ≤ 5
  · by_cases hr : (rsvField cw).toNat = 0
    · exact ⟨hop, BitVec.eq_of_toNat_eq hr, (decode_of_reserved_zero hop hr).symm.trans hi⟩
    · rw [decode_of_reserved_ne_zero hop hr] at hi; cases hi
  · rw [decode_of_opcode_undefined hop] at hi; cases hi

theorem decodeFields_vline (hop : (opcodeField cw).toNat = 1) :
    decodeFields cw = withDrawMode cw fun m =>
      .ok (.vline (sext16 (halfA cw)) (sext16 (halfB cw)) (sext16 (halfC cw)) (sext16 (halfD cw)) m) := by
  simp only [decodeFields, hop]

theorem decodeFields_hline (hop : (opcodeField cw).toNat = 2) :
    decodeFields cw = withDrawMode cw fun m => unusedZero (halfD cw)
      (.ok (.hline (sext16 (halfA cw)) (sext16 (halfB cw)) (sext16 (halfC cw)) m)) := by
  simp only [decodeFields, hop]

theorem decodeFields_sreset (hop : (opcodeField cw).toNat = 3) :
    decodeFields cw = withoutMode cw
      (.ok (.sreset (sext16 (halfA cw)) (sext16 (halfB cw)) (sext16 (halfC cw)) (sext16 (halfD cw)))) := by
  simp only [decodeFields, hop]

theorem decodeFields_swrite (hop : (opcodeField cw).toNat = 4) :
    decodeFields cw = withoutMode cw (unusedZero (halfD cw)
      (.ok (.swrite (sext16 (halfA cw)) (sext16 (halfB cw)) (sext16 (halfC cw))))) := by
  simp only [decodeFields, hop]

theorem decodeFields_sdraw (hop : (opcodeField cw).toNat = 5) :
    decodeFields cw = withDrawMode cw fun m => unusedZero (halfC cw) (unusedZero (halfD cw)
      (.ok (.sdraw (sext16 (halfA cw)) (sext16 (halfB cw)) m))) := by
  simp only [decodeFields, hop]

/-- The mode check of the three drawing commands comes before their operand check. -/
theorem decodeFields_of_bad_tag
    (hop : (opcodeField cw).toNat = 1 ∨ (opcodeField cw).toNat = 2 ∨ (opcodeField cw).toNat = 5)
    (hm : ¬(1 ≤ (modeField cw).toNat ∧ (modeField cw).toNat ≤ 5)) : decodeFields cw = .error .mode := by
  have hnone := drawModeOfTag_eq_none hm
  rcases hop with hop | hop | hop
  · rw [decodeFields_vline hop, withDrawMode_of_none hnone]
  · rw [decodeFields_hline hop, withDrawMode_of_none hnone]
  · rw [decodeFields_sdraw hop, withDrawMode_of_none hnone]

/-- The mode check of the two boundary commands comes before their operand check. -/
theorem decodeFields_of_unwanted_mode (hop : (opcodeField cw).toNat = 3 ∨ (opcodeField cw).toNat = 4)
    (hm : (modeField cw).toNat ≠ 0) : decodeFields cw = .error .mode := by
  rcases hop with hop | hop
  · rw [decodeFields_sreset hop, withoutMode_of_ne_zero hm]
  · rw [decodeFields_swrite hop, withoutMode_of_ne_zero hm]

/-! ## A legal word from its fields (30_encoding.md R66, R67) -/

/-- The control halfword is its three fields (30_encoding.md R61). -/
theorem halfH0_of_fields (cw : CmdWord) :
    halfH0 cw = opcodeField cw ++ rsvField cw ++ modeField cw := by
  apply BitVec.eq_of_getLsbD_eq; intro i hi
  simp only [halfH0, opcodeField, rsvField, modeField, BitVec.getLsbD_extractLsb', BitVec.getLsbD_append]
  interval_cases i <;> simp

/-- A word whose reserved bits are 0 is that of its opcode, its mode and its operand fields. -/
theorem word_of_fields {op : BitVec 4} {m : BitVec 3} (hop : (opcodeField cw).toNat = op.toNat)
    (hr : rsvField cw = 0) (hm : modeField cw = m) :
    wordOfHalves (controlHalf op m) (halfA cw) (halfB cw) (halfC cw) (halfD cw) = cw := by
  have hH0 : halfH0 cw = controlHalf op m := by
    rw [halfH0_of_fields, BitVec.eq_of_toNat_eq hop, hr, hm]; rfl
  rw [← hH0, word_of_halves]

/-- The command of a word that passes every check is one an encoding exists for, and its encoding is the
word: the fields it does not hold are the ones the checks found to be 0. -/
theorem encode_of_decodeFields {i : Instr} (hop : 1 ≤ (opcodeField cw).toNat ∧ (opcodeField cw).toNat ≤ 5)
    (hr : rsvField cw = 0) (hi : decodeFields cw = .ok i) : i.WellFormed ∧ encode i = cw := by
  have hop : (opcodeField cw).toNat = 1 ∨ (opcodeField cw).toNat = 2 ∨ (opcodeField cw).toNat = 3 ∨
    (opcodeField cw).toNat = 4 ∨ (opcodeField cw).toNat = 5 := by omega
  rcases hop with hop | hop | hop | hop | hop
  · rw [decodeFields_vline hop] at hi
    obtain ⟨m, hm, ⟨⟩⟩ := withDrawMode_eq_ok hi
    exact ⟨by simp [Instr.WellFormed, Instr.wellFormed, inRange16_sext16],
      by simpa [encode] using word_of_fields (op := 1) hop hr hm⟩
  · rw [decodeFields_hline hop] at hi
    obtain ⟨m, hm, hi⟩ := withDrawMode_eq_ok hi
    obtain ⟨hD, ⟨⟩⟩ := unusedZero_eq_ok hi
    exact ⟨by simp [Instr.WellFormed, Instr.wellFormed, inRange16_sext16],
      by simpa [encode, hD] using word_of_fields (op := 2) hop hr hm⟩
  · rw [decodeFields_sreset hop] at hi
    obtain ⟨hm, ⟨⟩⟩ := withoutMode_eq_ok hi
    exact ⟨by simp [Instr.WellFormed, Instr.wellFormed, inRange16_sext16],
      by simpa [encode] using word_of_fields (op := 3) hop hr hm⟩
  · rw [decodeFields_swrite hop] at hi
    obtain ⟨hm, hi⟩ := withoutMode_eq_ok hi
    obtain ⟨hD, ⟨⟩⟩ := unusedZero_eq_ok hi
    exact ⟨by simp [Instr.WellFormed, Instr.wellFormed, inRange16_sext16],
      by simpa [encode, hD] using word_of_fields (op := 4) hop hr hm⟩
  · rw [decodeFields_sdraw hop] at hi
    obtain ⟨m, hm, hi⟩ := withDrawMode_eq_ok hi
    obtain ⟨hC, hi⟩ := unusedZero_eq_ok hi
    obtain ⟨hD, ⟨⟩⟩ := unusedZero_eq_ok hi
    exact ⟨by simp [Instr.WellFormed, Instr.wellFormed, inRange16_sext16],
      by simpa [encode, hC, hD] using word_of_fields (op := 5) hop hr hm⟩

/-! ## The statements about the word -/

/-- Settles O1: field by field, the decoder reads what the encoder wrote. -/
theorem decodeEncodeRoundTrip : Obligations.DecodeEncodeRoundTrip := fun _ hi => decode_encode hi

/-- Settles O2: a legal word has passed every check, so its fields are those of its command. -/
theorem legalWordIsTheEncodingOfItsCommand : Obligations.LegalWordIsTheEncodingOfItsCommand := by
  intro cw i hi
  obtain ⟨hop, hr, hfields⟩ := decode_eq_ok hi
  exact encode_of_decodeFields hop hr hfields

/-- Settles O3: the numbers of the statement are the fields the decoder reads; each clause is then one of its
branches, the checks before it passed. -/
theorem decoderFollowsTheOrderedChecks : Obligations.DecoderFollowsTheOrderedChecks := by
  intro cw
  simp only [← opcodeField_toNat, ← rsvField_toNat, ← modeField_toNat, ← sext16_halfA, ← sext16_halfB,
    ← sext16_halfC, ← sext16_halfD]
  refine ⟨decode_of_opcode_undefined, decode_of_reserved_ne_zero, fun hop hr => ?_⟩
  rw [decode_of_reserved_zero hop hr]
  refine ⟨decodeFields_of_bad_tag, decodeFields_of_unwanted_mode, ?sreset, ?swriteUnused, ?swrite,
    fun tm htm hmode => ?drawing⟩
  case sreset => intro hop hm; rw [decodeFields_sreset hop, withoutMode_of_zero hm]
  case swriteUnused =>
    intro hop hm hD; rw [decodeFields_swrite hop, withoutMode_of_zero hm, unusedZero_of_ne_zero hD]
  case swrite => intro hop hm hD; rw [decodeFields_swrite hop, withoutMode_of_zero hm, unusedZero_of_zero hD]
  case drawing =>
    have hm : drawModeOfTag (modeField cw) = some tm.2 := drawModeOfTag_of_mem_tagTable htm hmode
    refine ⟨?vline, ?hlineUnused, ?hline, ?sdrawUnused, ?sdraw⟩
    case vline => intro hop; rw [decodeFields_vline hop, withDrawMode_of_some hm]
    case hlineUnused =>
      intro hop hD; rw [decodeFields_hline hop, withDrawMode_of_some hm, unusedZero_of_ne_zero hD]
    case hline => intro hop hD; rw [decodeFields_hline hop, withDrawMode_of_some hm, unusedZero_of_zero hD]
    case sdrawUnused =>
      intro hop hCD
      rw [decodeFields_sdraw hop, withDrawMode_of_some hm]
      by_cases hC : sext16 (halfC cw) = 0
      · rw [unusedZero_of_zero hC, unusedZero_of_ne_zero (hCD.resolve_left (not_not.mpr hC))]
      · rw [unusedZero_of_ne_zero hC]
    case sdraw =>
      intro hop hC hD
      rw [decodeFields_sdraw hop, withDrawMode_of_some hm, unusedZero_of_zero hC, unusedZero_of_zero hD]

/-- Settles O4: each word is closed, and the decoder is run on it. -/
theorem workedWordsDecode : Obligations.WorkedWordsDecode := by
  unfold Obligations.WorkedWordsDecode
  decide

end Sys2Proof

namespace Sys2Proof.Machine

/-! ## The lines the assembler accepts (30_encoding.md R70; 43_pseudo_commands.md R130) -/

/-- Every command of an accepted line is one an encoding exists for. -/
def AcceptsOnlyLegal (line : Option (List Instr)) : Prop := ∀ is, line = some is → ∀ i ∈ is, i.WellFormed

section AcceptedLines

variable {c : Prop} [Decidable c] {p q : Option (List Instr)}

theorem acceptsOnlyLegal_none : AcceptsOnlyLegal none := fun _ hsome => nomatch hsome

theorem acceptsOnlyLegal_emitIfLegal (is : List Instr) : AcceptsOnlyLegal (emitIfLegal is) := by
  intro js hsome
  obtain ⟨hall, ⟨⟩⟩ := Option.ite_none_right_eq_some.mp hsome
  exact List.all_eq_true.mp hall

theorem acceptsOnlyLegal_ite (hp : AcceptsOnlyLegal p) (hq : AcceptsOnlyLegal q) :
    AcceptsOnlyLegal (if c then p else q) := by
  split
  · exact hp
  · exact hq

theorem acceptsOnlyLegal_uprightOnly (x1 y1 x2 y2 : Int) (is : List Instr) :
    AcceptsOnlyLegal (uprightOnly x1 y1 x2 y2 is) :=
  acceptsOnlyLegal_ite (acceptsOnlyLegal_emitIfLegal is) acceptsOnlyLegal_none

theorem acceptsOnlyLegal_bind {α : Type} (o : Option α) {f : α → Option (List Instr)}
    (hf : ∀ a, AcceptsOnlyLegal (f a)) : AcceptsOnlyLegal (o.bind f) := by
  cases o with
  | none => exact acceptsOnlyLegal_none
  | some a => exact hf a

end AcceptedLines

/-- Whatever the mnemonic and the operands, the commands pass the range check before they are emitted. -/
theorem acceptsOnlyLegal_assembleParts (mnemonic : List Char) (operands : List AsmOperand) :
    AcceptsOnlyLegal (assembleParts mnemonic operands) := by
  have emitted := acceptsOnlyLegal_emitIfLegal
  have refused := acceptsOnlyLegal_none
  have emittedInMode (m : AsmOperand) (f : DrawMode → List Instr) :
      AcceptsOnlyLegal ((modeOperand m).bind fun mode => emitIfLegal (f mode)) :=
    acceptsOnlyLegal_bind _ fun mode => emitted (f mode)
  have rectangle (m : AsmOperand) (a b c d : Int) (f : DrawMode → List Instr) :
      AcceptsOnlyLegal ((modeOperand m).bind fun mode => uprightOnly a b c d (f mode)) :=
    acceptsOnlyLegal_bind _ fun mode => acceptsOnlyLegal_uprightOnly a b c d (f mode)
  unfold assembleParts
  split
  · exact acceptsOnlyLegal_ite (emitted _) refused
  · exact acceptsOnlyLegal_ite (emitted _) refused
  · next _ _ m =>
    refine acceptsOnlyLegal_ite ?swrite (acceptsOnlyLegal_ite (emittedInMode m _)
      (acceptsOnlyLegal_ite (emittedInMode m _) refused))
    cases m with
    | int c => exact emitted _
    | name _ => exact refused
  · next _ _ _ m =>
    refine acceptsOnlyLegal_ite ?sreset (acceptsOnlyLegal_ite (emittedInMode m _) refused)
    cases m with
    | int d => exact emitted _
    | name _ => exact refused
  · next _ _ _ _ m =>
    exact acceptsOnlyLegal_ite (emittedInMode m _) (acceptsOnlyLegal_ite (rectangle m _ _ _ _ _)
      (acceptsOnlyLegal_ite (rectangle m _ _ _ _ _) refused))
  · exact refused

theorem acceptsOnlyLegal_assembleLine (line : List Char) : AcceptsOnlyLegal (assembleLine line) := by
  unfold assembleLine
  refine acceptsOnlyLegal_ite ?blank (acceptsOnlyLegal_assembleParts _ _)
  rintro _ ⟨⟩ i hi
  cases hi

/-- Settles O49: the words of an accepted line are encodings of legal commands, and each decodes back. -/
theorem assembledWordsAreLegal : Obligations.AssembledWordsAreLegal := by
  intro line words hwords
  obtain ⟨is, his, rfl⟩ := Option.map_eq_some_iff.mp hwords
  refine ⟨is, his, ?_⟩
  rw [List.map_map]
  exact List.map_congr_left fun i hi => decode_encode (acceptsOnlyLegal_assembleLine line is his i hi)

end Sys2Proof.Machine
end

section
/-! SUPPORT. The drawing commands, read as one: every byte operation of a command lies in its reach, every
pixel of the reach gets the value of its draw mode, and equal pixels make equal framebuffers. The statements
about `VLINE`, `HLINE` and the draw modes (40_span_blitters.md) follow from these. -/

namespace Sys2Proof.Machine

open Sys2Proof.Statements

/-! ## The whole framebuffer from its pixels (20_memory.md R41) -/

/-- Two framebuffers in canonical form that show the same picture are equal. -/
theorem mem_ext_of_pixels {m m' : Memory} (hm : MemWf m) (hm' : MemWf m')
    (h : ∀ x y, x < 72 → y < 40 → pixelOf m x y = pixelOf m' x y) : m = m' := by
  refine mem_ext hm hm' fun a => ?_
  by_cases ha : a < Config.fbBytes
  · refine BitVec.eq_of_getLsbD_eq fun i hi => ?_
    obtain ⟨x, y, hx, hy, rfl, rfl⟩ := fbPlace_surj ha hi
    exact h x y hx hy
  · rw [memRead_outside hm (Nat.not_lt.mp ha), memRead_outside hm' (Nat.not_lt.mp ha)]

/-- Two sequences of byte operations on the framebuffer that do the same to every on-screen pixel leave the
same framebuffer. -/
theorem byteOpsRun_eq_of_pixels {m : Memory} (hm : MemWf m) {os os' : List ByteOp}
    (ho : ∀ o ∈ os, o.addr < Config.fbBytes) (ho' : ∀ o ∈ os', o.addr < Config.fbBytes)
    (h : ∀ x y p, x < 72 → y < 40 →
      laneRun (fbAddr x y) (fbBit y) os p = laneRun (fbAddr x y) (fbBit y) os' p) :
    byteOpsRun m os = byteOpsRun m os' := by
  refine mem_ext_of_pixels (memWf_byteOpsRun hm ho) (memWf_byteOpsRun hm ho') fun x y hx hy => ?_
  rw [pixelOf_byteOpsRun hm ho, pixelOf_byteOpsRun hm ho', h x y _ hx hy]

/-! ## Drawing in sequence -/

@[simp] theorem drawBytes_nil (s : State) : drawBytes s [] = s := rfl

theorem drawBytes_append (s : State) (os os' : List ByteOp) :
    drawBytes s (os ++ os') = drawBytes (drawBytes s os) os' := by
  simp [drawBytes, byteOpsRun_append]

theorem drawBytes_congr {s : State} {os os' : List ByteOp} (h : byteOpsRun s.fb os = byteOpsRun s.fb os') :
    drawBytes s os = drawBytes s os' := by
  simp [drawBytes, h]

theorem onlyFramebuffer_drawBytes (s : State) (os : List ByteOp) : OnlyFramebuffer s (drawBytes s os) :=
  ⟨⟨rfl, rfl⟩, ⟨rfl, rfl⟩, rfl, rfl, rfl⟩

/-! ## What a command reads: the boundary registers only (42_shape_draw.md R111) -/

theorem commandOps_congr {s t : State} (h : SameBoundary s t) (i : Instr) :
    commandOps t i = commandOps s i := by
  cases s
  cases t
  obtain ⟨hupper, hlower⟩ := h
  cases hupper
  cases hlower
  rfl

/-! ## A command stays in its reach (40_span_blitters.md R88 item 4) -/

/-- What every command makes of the framebuffer. -/
theorem exec_fb (i : Instr) (s : State) :
    ∃ t, exec i s = .next t ∧ t.fb = byteOpsRun s.fb (commandOps s i) := by
  rcases exec_cases i s with hdraw | ⟨hnone, u, l, xs, hwrite⟩
  · exact ⟨_, hdraw, rfl⟩
  · obtain ⟨hfb, -⟩ := writePairs_frame s u l xs
    exact ⟨_, hwrite, by rw [hfb, hnone]; rfl⟩

/-- A command's byte operations do nothing to a place of a pixel outside its reach. -/
theorem commandOps_lane_outside {s : State} {i : Instr} {x y : Nat} (hx : x < 72)
    (h : commandReaches s i x y = false) (p : Bool) :
    laneRun (fbAddr x y) (fbBit y) (commandOps s i) p = p :=
  laneRun_untouched (fun _ ho hl => by simp [commandOps_reach hx ho hl] at h) p

/-- A byte that holds no pixel of the reach keeps its value. -/
theorem bytesOutside_commandReaches {s t : State} {i : Instr} (hm : MemWf s.fb)
    (ht : t.fb = byteOpsRun s.fb (commandOps s i)) : BytesOutside (commandReaches s i) s t := by
  intro a hout
  rw [ht]
  by_cases ha : a < Config.fbBytes
  · refine BitVec.eq_of_getLsbD_eq fun k hk => ?_
    rw [byteOpsRun_lane hm (commandOps_addr s i) a hk]
    obtain ⟨x, y, hx, hy, rfl, rfl⟩ := fbPlace_surj ha hk
    have hreach : commandReaches s i x y = false := Bool.eq_false_iff.mpr fun hr => hout x y hx hy hr rfl
    exact commandOps_lane_outside hx hreach _
  · exact byteOpsRun_other fun o ho haddr => ha (haddr ▸ commandOps_addr s i o ho)

/-! ## What a drawing command makes of a pixel -/

/-- Whether a pixel of the reach is a border pixel in an outline mode: a boundary row of a `VLINE`, an end
pixel of an `HLINE` (40_span_blitters.md R84, R86), the reconstructed outline of an `SDRAW`
(42_shape_draw.md R113, R114). -/
def onBorder (s : State) : Instr → Nat → Nat → Bool
  | .vline _ _ y1 y2 _, _, y => decide ((y : Int) = y1 ∨ (y : Int) = y2)
  | .hline _ x1 x2 _, x, _ => decide ((x : Int) = x1 ∨ (x : Int) = x2)
  | .sreset _ _ _ _, _, _ => false
  | .swrite _ _ _, _, _ => false
  | .sdraw x1 x2 _, x, y => sdrawBorder s x1 x2 x y

/-- The pixel `(x, y)` after a drawing command, from its value `p` before. -/
def drawnValue (mode : DrawMode) (s : State) (i : Instr) (x y : Nat) (p : Bool) : Bool :=
  if commandReaches s i x y = true then spanValue mode (onBorder s i x y) p else p

section Drawing

variable {mode : DrawMode} {i : Instr} {s : State}

theorem exec_of_draws (hd : Draws mode i) (s : State) : exec i s = .next (drawBytes s (commandOps s i)) := by
  cases hd with
  | vline | hline | sdraw => rfl

/-- A drawing command after other drawing does the byte operations it would have done first. -/
theorem exec_drawBytes (hd : Draws mode i) (s : State) (os : List ByteOp) :
    exec i (drawBytes s os) = .next (drawBytes s (os ++ commandOps s i)) := by
  have hsame : SameBoundary s (drawBytes s os) := ⟨rfl, rfl⟩
  rw [exec_of_draws hd, commandOps_congr hsame, drawBytes_append]

/-- The byte operations of a drawing command give every on-screen pixel its value. -/
theorem commandOps_lane (hd : Draws mode i) (s : State) {x y : Nat} (hx : x < 72) (hy : y < 40) (p : Bool) :
    laneRun (fbAddr x y) (fbBit y) (commandOps s i) p = drawnValue mode s i x y p := by
  cases hd with
  | vline x1 x2 y1 y2 => exact vlineOps_lane hx hy x1 x2 y1 y2 mode p
  | hline y0 x1 x2 =>
    rw [commandOps, hlineOps_lane hx hy]
    simp [hlineValue, drawnValue, commandReaches, onBorder]
  | sdraw x1 x2 => exact sdrawOps_lane hx hy s x1 x2 mode p

/-- A drawing command answers a next state: the pixels of its reach have the value of the mode, the other
bytes and everything but the framebuffer are as they were. -/
theorem exec_spec_of_draws (hd : Draws mode i) (hm : MemWf s.fb) :
    ∃ t, exec i s = .next t ∧ PixelsBecome (drawnValue mode s i) s t ∧
      BytesOutside (commandReaches s i) s t ∧ OnlyFramebuffer s t := by
  refine ⟨_, exec_of_draws hd s, fun x y hx hy => ?_, bytesOutside_commandReaches hm rfl,
    onlyFramebuffer_drawBytes s _⟩
  rw [drawBytes_fb, pixelOf_byteOpsRun hm (commandOps_addr s i), commandOps_lane hd s hx hy]

/-- A drawing command run twice leaves what any byte operations leave that do to every pixel what it does
twice over. -/
theorem exec_twice_of_draws (hd : Draws mode i) (hm : MemWf s.fb) {os : List ByteOp}
    (hos : ∀ o ∈ os, o.addr < Config.fbBytes)
    (h : ∀ x y p, x < 72 → y < 40 →
      drawnValue mode s i x y (drawnValue mode s i x y p) = laneRun (fbAddr x y) (fbBit y) os p) :
    exec i (drawBytes s (commandOps s i)) = .next (drawBytes s os) := by
  have hops := commandOps_addr s i
  rw [exec_drawBytes hd]
  refine congrArg Host.Outcome.next (drawBytes_congr ?_)
  refine byteOpsRun_eq_of_pixels hm (List.forall_mem_append.mpr ⟨hops, hops⟩) hos fun x y p hx hy => ?_
  rw [laneRun_append, commandOps_lane hd s hx hy, commandOps_lane hd s hx hy, h x y p hx hy]

end Drawing

/-! ## The draw modes (00_scope.md R12) -/

theorem spanValue_xor_xor (b p : Bool) : spanValue .xor b (spanValue .xor b p) = p := Bool.not_not p

/-- In every mode but `xor` the value of a drawn pixel does not depend on the one before. -/
theorem spanValue_of_ne_xor {mode : DrawMode} (h : mode ≠ .xor) (b p q : Bool) :
    spanValue mode b p = spanValue mode b q := by
  cases mode with
  | fill | outline | bgFill | bgOutline => rfl
  | xor => exact absurd rfl h

theorem drawnValue_xor_xor (s : State) (i : Instr) (x y : Nat) (p : Bool) :
    drawnValue .xor s i x y (drawnValue .xor s i x y p) = p := by
  unfold drawnValue
  split
  · exact spanValue_xor_xor _ p
  · rfl

theorem drawnValue_idem {mode : DrawMode} (h : mode ≠ .xor) (s : State) (i : Instr) (x y : Nat) (p : Bool) :
    drawnValue mode s i x y (drawnValue mode s i x y p) = drawnValue mode s i x y p := by
  unfold drawnValue
  split
  · exact spanValue_of_ne_xor h _ _ p
  · rfl

/-! ## The words of the drawing commands (30_encoding.md R61) -/

/-- A control halfword by its numbers: the opcode in bits 15:12, the tag in the low bits. -/
theorem controlHalf_of_tagTable : ∀ op < 16, ∀ tm ∈ tagTable,
    BitVec.ofNat 16 (op * 4096 + tm.1) = controlHalf (BitVec.ofNat 4 op) tm.2.tag := by decide

theorem decode_wordOf_vline {x1 x2 y1 y2 : Int} {tm : Nat × DrawMode} (htm : tm ∈ tagTable)
    (hwf : Instr.WellFormed (.vline x1 x2 y1 y2 tm.2)) :
    decode (wordOf 1 tm.1 x1 x2 y1 y2) = .ok (.vline x1 x2 y1 y2 tm.2) := by
  rw [← decode_encode hwf, wordOf, controlHalf_of_tagTable 1 (by decide) tm htm]
  rfl

theorem decode_wordOf_hline {y0 x1 x2 : Int} {tm : Nat × DrawMode} (htm : tm ∈ tagTable)
    (hwf : Instr.WellFormed (.hline y0 x1 x2 tm.2)) :
    decode (wordOf 2 tm.1 y0 x1 x2 0) = .ok (.hline y0 x1 x2 tm.2) := by
  rw [← decode_encode hwf, wordOf, controlHalf_of_tagTable 2 (by decide) tm htm]
  rfl

/-! ## `VLINE`: pixel form, columns, empty spans -/

/-- The pixel-level `VLINE` touches addresses of the framebuffer only. -/
theorem vlinePixelOps_addr (x1 x2 y1 y2 : Int) (mode : DrawMode) :
    ∀ o ∈ vlinePixelOps x1 x2 y1 y2 mode, o.addr < Config.fbBytes := by
  intro o ho
  have h0 : (0 : Int) ≤ clipLoY y1 := Int.le_max_right _ _
  have hscreen : clipHiY y2 ≤ 39 := Int.min_le_right _ _
  simp only [vlinePixelOps] at ho
  split at ho
  · cases ho
  · next hne =>
    have toggle : ∀ {c : Prop} [Decidable c] {y : Nat}, y < 40 →
        o ∈ (if c then (upTo (clipLoX x1) (clipHiX x2)).map (fun x => pixOp .tgl x y) else []) →
        o.addr < Config.fbBytes := by
      intro c _ y hy ho
      split at ho
      · exact row_addr upToX_lt hy o ho
      · cases ho
    rcases List.mem_append.mp ho with ho | ho
    · rcases List.mem_append.mp ho with ho | ho
      · obtain ⟨x, hx, ho⟩ := List.mem_flatMap.mp ho
        obtain ⟨y, hy, rfl⟩ := List.mem_map.mp ho
        have hrow := (mem_upTo h0).mp hy
        exact fbAddr_lt (upToX_lt x hx) (by omega)
      · exact toggle (by omega) ho
    · exact toggle (by omega) ho

/-- A list of columns read as integers in the list monad, which is how the statement about a `VLINE`'s columns
reads its list, is the list of the integers. -/
theorem intColumns_eq_map (xs : List Nat) :
    (do let x ← xs; pure (x : Int)) = xs.map fun x : Nat => (x : Int) :=
  (List.map_eq_flatMap ..).symm

/-- One-column `VLINE`s in sequence perform their byte operations in sequence. -/
theorem execAll_vlineColumns (xs : List Nat) (y1 y2 : Int) (mode : DrawMode) (s : State) :
    execAll (xs.map fun x : Nat => Instr.vline x x y1 y2 mode) s =
      .next (drawBytes s (xs.flatMap fun x : Nat => vlineOps x x y1 y2 mode)) := by
  induction xs generalizing s with
  | nil => rfl
  | cons x xs ih =>
    rw [List.flatMap_cons, drawBytes_append]
    exact ih _

theorem vlineColumns_addr (xs : List Nat) (y1 y2 : Int) (mode : DrawMode) :
    ∀ o ∈ xs.flatMap fun x : Nat => vlineOps x x y1 y2 mode, o.addr < Config.fbBytes := by
  intro o ho
  obtain ⟨x, -, ho⟩ := List.mem_flatMap.mp ho
  exact vlineOps_addr _ _ _ _ _ o ho

/-- One-column `VLINE`s of the columns of a `VLINE`, in any order, do to a pixel what the `VLINE` does: only
the one of the pixel's own column touches it. -/
theorem vlineColumns_lane {x y : Nat} (hx : x < 72) (hy : y < 40) {xs : List Nat} {x1 x2 : Int}
    (hperm : xs.Perm (columns x1 x2)) (y1 y2 : Int) (mode : DrawMode) (p : Bool) :
    laneRun (fbAddr x y) (fbBit y) (xs.flatMap fun x : Nat => vlineOps x x y1 y2 mode) p =
      laneRun (fbAddr x y) (fbBit y) (vlineOps x1 x2 y1 y2 mode) p := by
  have hnd : xs.Nodup := hperm.nodup_iff.mpr (nodup_columns x1 x2)
  have hmem : x ∈ xs ↔ inClipped x1 x2 71 x = true := hperm.mem_iff.trans mem_columns
  have hself : inClipped x x 71 x = true := by
    simp only [inClipped, Bool.and_eq_true, decide_eq_true_eq]
    omega
  rw [laneRun_flatMap_one (x := x) hnd fun x' _ hne q => vlineOps_lane_other hx hy hne y1 y2 mode q,
    vlineOps_lane hx hy, vlineOps_lane hx hy]
  by_cases hin : inClipped x1 x2 71 x = true
  · rw [if_pos (hmem.mpr hin)]
    simp only [vlineValue, inRect, hself, hin]
  · rw [if_neg fun h => hin (hmem.mp h)]
    simp [vlineValue, inRect, hin]

theorem vlineOps_of_empty {x1 x2 y1 y2 : Int} (mode : DrawMode)
    (h : x2 < x1 ∨ y2 < y1 ∨ x2 < 0 ∨ 71 < x1 ∨ y2 < 0 ∨ 39 < y1) : vlineOps x1 x2 y1 y2 mode = [] := by
  have hclip : clipHiX x2 < clipLoX x1 ∨ clipHiY y2 < clipLoY y1 := by
    simp only [clipLoX, clipHiX, clipLoY, clipHiY, Config.screenW, Config.screenH]
    omega
  exact if_pos hclip

theorem hlineOps_of_empty {y0 x1 x2 : Int} (mode : DrawMode)
    (h : y0 < 0 ∨ 39 < y0 ∨ x2 < x1 ∨ x2 < 0 ∨ 71 < x1) : hlineOps y0 x1 x2 mode = [] := by
  have hclip : y0 < 0 ∨ (Config.screenH : Int) - 1 < y0 ∨ clipHiX x2 < clipLoX x1 := by
    simp only [clipLoX, clipHiX, Config.screenW, Config.screenH]
    omega
  exact if_pos hclip

/-! ## One byte operation (40_span_blitters.md R81, R90) -/

theorem bitOpApply_zero (op : BitOp) (b : Byte) : bitOpApply op b 0 = b :=
  BitVec.eq_of_getLsbD_eq fun i hi => by
    rw [bitOpApply_lane op b 0 hi]
    simp

/-- A byte operation with an empty mask changes nothing. -/
theorem byteOpRun_zero {m : Memory} (hm : MemWf m) (op : BitOp) {addr : Nat} (ha : addr < Config.fbBytes) :
    byteOpRun m ⟨op, addr, 0⟩ = m := by
  refine mem_ext (memWf_byteOpRun hm ha) hm fun a => ?_
  rw [memRead_byteOpRun hm, bitOpApply_zero, ite_self]

/-! ## The obligations -/

/-- Settles O6: the lanes of the mask, and on an inner page every lane is in the span. -/
theorem columnMaskHoldsTheSpansRows : Obligations.ColumnMaskHoldsTheSpansRows := by
  intro p ya yb _ _ hfirst hlast
  refine ⟨fun i hi => colMask_lane hfirst hlast hi, fun hafter hbefore => ?_⟩
  refine BitVec.eq_of_getLsbD_eq fun i hi => ?_
  have full : ∀ k < 8, (0xFF#8).getLsbD k = true := by decide
  rw [colMask_lane hfirst hlast hi, full i hi, decide_eq_true_eq]
  omega

/-- Settles O7: one byte is read and written, and its lanes go their own ways. -/
theorem byteOperationActsLaneByLane : Obligations.ByteOperationActsLaneByLane := by
  intro m op addr mask hm haddr
  refine ⟨fun a i hi => ?_, fun hmask => hmask ▸ byteOpRun_zero hm op haddr⟩
  rw [memRead_byteOpRun hm]
  by_cases ha : a = addr
  · simp only [ha, if_true, true_and]
    rw [bitOpApply_lane op _ _ hi]
    cases op <;> rfl
  · rw [if_neg ha, if_neg fun h => ha h.1]

/-- Settles O8, from what a drawing command does; its word is the encoder's. -/
theorem vlineDrawsTheClippedRectangle : Obligations.VlineDrawsTheClippedRectangle := by
  intro x1 x2 y1 y2 mode s hm
  obtain ⟨t, hexec, hpixels, hbytes, hframe⟩ := exec_spec_of_draws (.vline x1 x2 y1 y2 mode) hm
  refine ⟨⟨t, hexec, fun x y hx hy => ?_, hbytes, hframe⟩, ?_⟩
  · rw [hpixels x y hx hy]
    simp only [drawnValue, commandReaches, inRect, inClipped, onBorder, Bool.and_eq_true, decide_eq_true_eq,
      and_assoc]
    cases mode <;> rfl
  · rintro hwf tm htm rfl
    exact decode_wordOf_vline htm hwf

/-- Settles O9: both forms do the same to every pixel. -/
theorem vlineByteFormRefinesPixelForm : Obligations.VlineByteFormRefinesPixelForm := by
  intro x1 x2 y1 y2 mode s hm
  refine congrArg Host.Outcome.next (drawBytes_congr ?_)
  refine byteOpsRun_eq_of_pixels hm (vlineOps_addr _ _ _ _ _) (vlinePixelOps_addr _ _ _ _ _)
    fun x y p hx hy => ?_
  rw [vlineOps_lane hx hy, vlinePixelOps_lane hx hy]

/-- Settles O10: each pixel sees the `VLINE` of its own column and no other. -/
theorem vlineIsItsColumnsInAnyOrder : Obligations.VlineIsItsColumnsInAnyOrder := by
  intro x1 x2 y1 y2 mode s xs hm hperm
  rw [intColumns_eq_map, List.map_map]
  refine Eq.trans ?_ (execAll_vlineColumns xs y1 y2 mode s).symm
  refine congrArg Host.Outcome.next (drawBytes_congr ?_)
  exact byteOpsRun_eq_of_pixels hm (vlineOps_addr _ _ _ _ _) (vlineColumns_addr _ _ _ _) fun x y p hx hy =>
    (vlineColumns_lane hx hy hperm y1 y2 mode p).symm

/-- Settles O11, from what a drawing command does; its word is the encoder's. -/
theorem hlineDrawsTheClippedRow : Obligations.HlineDrawsTheClippedRow := by
  intro y0 x1 x2 mode s hm
  obtain ⟨t, hexec, hpixels, hbytes, hframe⟩ := exec_spec_of_draws (.hline y0 x1 x2 mode) hm
  refine ⟨⟨t, hexec, fun x y hx hy => ?_, hbytes, hframe⟩, ?_⟩
  · rw [hpixels x y hx hy]
    simp only [drawnValue, commandReaches, inClipped, onBorder, Bool.and_eq_true, decide_eq_true_eq]
    cases mode <;> rfl
  · rintro hwf tm htm rfl
    exact decode_wordOf_hline htm hwf

/-- Settles O12: clipping leaves no row or no column, so there is no byte operation to perform. -/
theorem emptySpansChangeNothing : Obligations.EmptySpansChangeNothing := by
  refine ⟨fun x1 x2 y1 y2 mode s h => ?_, fun y x1 x2 mode s h => ?_⟩
  · rw [exec_of_draws (.vline x1 x2 y1 y2 mode), commandOps, vlineOps_of_empty mode h, drawBytes_nil]
  · rw [exec_of_draws (.hline y x1 x2 mode), commandOps, hlineOps_of_empty mode h, drawBytes_nil]

/-- Settles O13: done twice over, every pixel is what no byte operation makes of it. -/
theorem xorTwiceRestoresTheState : Obligations.XorTwiceRestoresTheState := by
  intro i s hd hm
  exact ⟨_, exec_of_draws hd s, exec_twice_of_draws hd hm (os := []) (by simp) fun x y p _ _ =>
    drawnValue_xor_xor s i x y p⟩

/-- Settles O14: done twice over, every pixel is what the command makes of it once. -/
theorem otherModesAreIdempotent : Obligations.OtherModesAreIdempotent := by
  intro mode i s hd hmode hm
  refine ⟨_, exec_of_draws hd s, exec_twice_of_draws hd hm (commandOps_addr s i) fun x y p hx hy => ?_⟩
  rw [commandOps_lane hd s hx hy, drawnValue_idem hmode]

/-- Settles O15: both states run the same byte operations, and these give each pixel of the reach a value of
their own. -/
theorem otherModesIgnoreThePriorPicture : Obligations.OtherModesIgnoreThePriorPicture := by
  intro mode i s s' hd hmode hm hm' hsame
  refine ⟨_, _, exec_of_draws hd s, exec_of_draws hd s', fun x y hx hy hreach => ?_⟩
  have hops := commandOps_addr s i
  rw [commandOps_congr hsame, drawBytes_fb, drawBytes_fb, pixelOf_byteOpsRun hm hops,
    pixelOf_byteOpsRun hm' hops, commandOps_lane hd s hx hy, commandOps_lane hd s hx hy, drawnValue,
    drawnValue, if_pos hreach, if_pos hreach]
  exact spanValue_of_ne_xor hmode _ _ _

/-- Settles O16: every lane a command's byte operations select is a pixel of its reach. -/
theorem commandsStayInTheirReach : Obligations.CommandsStayInTheirReach := by
  intro i s hm
  obtain ⟨t, hexec, hfb⟩ := exec_fb i s
  have hops := commandOps_addr s i
  refine ⟨t, hexec, fun x y hx _ hout => ?_, bytesOutside_commandReaches hm hfb, fun a ha => ?_⟩
  · rw [hfb, pixelOf_byteOpsRun hm hops, commandOps_lane_outside hx hout]
  · have hfar : ∀ o ∈ commandOps s i, o.addr ≠ a := fun o ho => ((hops o ho).trans_le ha).ne
    rw [hfb, byteOpsRun_other hfar]

end Sys2Proof.Machine
end

section
/-! SUPPORT. The boundary commands `SRESET` and `SWRITE` (41_shape_boundary.md): both write one pair of values
to a list of columns, so what they do is said once, of that list. -/

namespace Sys2Proof.Machine

open Sys2Proof.Statements

/-! ## One pair of values in a list of columns (10_state.md R20) -/

/-- The written columns hold the two values as integers, every other column what it held; `P` is any other way
to say which columns are written. -/
theorem pair_writePairs (s : State) {u l : Int} (hu : inRange16 u = true) (hl : inRange16 l = true)
    {xs : List Nat} {x : Nat} (hx : x < 72) {P : Prop} [Decidable P] (hmem : x ∈ xs ↔ P) :
    if P then upperVal (writePairs s u l xs) x = u ∧ lowerVal (writePairs s u l xs) x = l
    else upperVal (writePairs s u l xs) x = upperVal s x ∧ lowerVal (writePairs s u l xs) x = lowerVal s x := by
  simp only [upperVal, lowerVal, upperRaw_writePairs s u l xs hx, lowerRaw_writePairs s u l xs hx]
  by_cases hP : P
  · rw [if_pos hP, if_pos (hmem.mpr hP), if_pos (hmem.mpr hP)]
    exact ⟨sext16_half16 hu, sext16_half16 hl⟩
  · have hout : x ∉ xs := fun h => hP (hmem.mp h)
    rw [if_neg hP, if_neg hout, if_neg hout]
    exact ⟨rfl, rfl⟩

theorem onlyBoundary_writePairs (s : State) (u l : Int) (xs : List Nat) :
    OnlyBoundary s (writePairs s u l xs) := by
  obtain ⟨hfb, hstatus, herr, hpending, hreplies, hfree⟩ := writePairs_frame s u l xs
  exact ⟨hfb, ⟨hstatus, herr⟩, hpending, hreplies, hfree⟩

/-! ## The two commands as such writes (41_shape_boundary.md R100, R101) -/

theorem mem_columns_iff_clipped {x1 x2 : Int} {x : Nat} :
    x ∈ columns x1 x2 ↔ max x1 0 ≤ (x : Int) ∧ (x : Int) ≤ min x2 71 := by
  rw [mem_columns, inClipped, Bool.and_eq_true, decide_eq_true_eq, decide_eq_true_eq]

theorem exec_sreset (x1 x2 u l : Int) (s : State) :
    exec (.sreset x1 x2 u l) s = .next (writePairs s u l (columns x1 x2)) := rfl

theorem exec_swrite_of_onScreen {x : Int} (h : 0 ≤ x ∧ x ≤ 71) (u l : Int) (s : State) :
    exec (.swrite x u l) s = .next (writePairs s u l [x.toNat]) :=
  congrArg Host.Outcome.next (if_pos h)

theorem exec_swrite_of_offScreen {x : Int} (h : ¬(0 ≤ x ∧ x ≤ 71)) (u l : Int) (s : State) :
    exec (.swrite x u l) s = .next s :=
  congrArg Host.Outcome.next (if_neg h)

/-! ## The words of the boundary commands (30_encoding.md R61, R63) -/

/-- The control halfword of a command without a mode, by its number: the opcode in bits 15:12. -/
theorem controlHalf_of_noMode : ∀ op < 16,
    BitVec.ofNat 16 (op * 4096 + 0) = controlHalf (BitVec.ofNat 4 op) 0 := by decide

theorem wordOf_sreset (x1 x2 u l : Int) : wordOf 3 0 x1 x2 u l = encode (.sreset x1 x2 u l) := by
  rw [wordOf, controlHalf_of_noMode 3 (by decide)]
  rfl

theorem wordOf_swrite (x u l : Int) : wordOf 4 0 x u l 0 = encode (.swrite x u l) := by
  rw [wordOf, controlHalf_of_noMode 4 (by decide)]
  rfl

/-! ## The obligations -/

/-- Settles O19: the pairs written are those of the clipped columns, and the word is the encoder's. -/
theorem sresetFillsTheClippedRange : Obligations.SresetFillsTheClippedRange := by
  intro x1 x2 upper lower s hwf
  have hrange := hwf
  simp only [Instr.WellFormed, Instr.wellFormed, Bool.and_eq_true] at hrange
  obtain ⟨⟨-, hupper⟩, hlower⟩ := hrange
  refine ⟨⟨_, exec_sreset x1 x2 upper lower s, fun x hx => ?_, onlyBoundary_writePairs s upper lower _⟩, ?_⟩
  · exact pair_writePairs s hupper hlower hx mem_columns_iff_clipped
  · rw [wordOf_sreset, decode_encode hwf]

/-- Settles O20: on screen the one pair written is that of column `x`, off screen none is, and the word is the
encoder's. -/
theorem swriteWritesOnePair : Obligations.SwriteWritesOnePair := by
  intro x upper lower s hwf
  have hrange := hwf
  simp only [Instr.WellFormed, Instr.wellFormed, Bool.and_eq_true] at hrange
  obtain ⟨⟨-, hupper⟩, hlower⟩ := hrange
  refine ⟨fun hon => ?_, fun hoff => exec_swrite_of_offScreen hoff upper lower s, ?_⟩
  · refine ⟨_, exec_swrite_of_onScreen hon upper lower s, fun n hn => ?_, onlyBoundary_writePairs s upper lower _⟩
    have hcolumn : n ∈ [x.toNat] ↔ (n : Int) = x := by
      rw [List.mem_singleton]
      omega
    exact pair_writePairs s hupper hlower hn hcolumn
  · rw [wordOf_swrite, decode_encode hwf]

end Sys2Proof.Machine
end

section
/-! SUPPORT. `SDRAW` (42_shape_draw.md): the rows of the shape and its outline said in the numbers of the
boundary registers, the pixel-level column loop beside the byte-level one, and the order of the columns. The
value of every pixel comes from what is said of a drawing command in general. -/

namespace Sys2Proof.Machine

open Sys2Proof.Statements

/-! ## The shape and its outline, in the boundary registers (42_shape_draw.md R111, R113, R115, R118) -/

theorem mem_neighbours {x n : Nat} (hx : x < 72) : n ∈ neighbours x ↔ n < 72 ∧ (n + 1 = x ∨ n = x + 1) := by
  have hleft : n ∈ (if 0 < x then [x - 1] else []) ↔ n + 1 = x := by
    split
    · rw [List.mem_singleton]; omega
    · simp only [List.not_mem_nil, false_iff]; omega
  have hright : n ∈ (if x + 1 < Config.screenW then [x + 1] else []) ↔ n < 72 ∧ n = x + 1 := by
    have hscreen : Config.screenW = 72 := rfl
    split
    · rw [List.mem_singleton]; omega
    · simp only [List.not_mem_nil, false_iff]; omega
  rw [neighbours, List.mem_append, hleft, hright]
  omega

/-- The pixels of the shape; for a row of the screen the clipping of the span to the screen says nothing. -/
theorem inShape_iff {s : State} {x1 x2 : Int} {x y : Nat} (hy : y < 40) :
    inShape s x1 x2 x y = true ↔
      max x1 0 ≤ (x : Int) ∧ (x : Int) ≤ min x2 71 ∧ upperVal s x ≤ (y : Int) ∧ (y : Int) ≤ lowerVal s x := by
  simp only [inShape, inClipped, Bool.and_eq_true, decide_eq_true_eq]
  omega

/-- A row is border at an edge column, at an end of its own span, or where some neighbour on the screen does not
hold it. -/
theorem sdrawBorder_iff {s : State} {x1 x2 : Int} {x y : Nat} (hx : x < 72) :
    sdrawBorder s x1 x2 x y = true ↔
      ((x : Int) = x1 ∨ (x : Int) = x2 ∨ (y : Int) = upperVal s x ∨ (y : Int) = lowerVal s x ∨
        ∃ n ∈ List.range 72, (n + 1 = x ∨ n = x + 1) ∧
          (lowerVal s n < upperVal s n ∨ (y : Int) < upperVal s n ∨ lowerVal s n < (y : Int))) := by
  simp only [sdrawBorder, columnEmpty, Bool.or_eq_true, decide_eq_true_eq, List.any_eq_true, mem_neighbours hx,
    List.mem_range, or_assoc, and_assoc]

/-- What an `SDRAW` makes of a pixel depends on the registers of its own and the neighbouring columns only. -/
theorem sdrawValue_congr {s s' : State} {x : Nat} (hx : x < 72)
    (hnear : ∀ n : Nat, n < 72 → n ≤ x + 1 → x ≤ n + 1 →
      upperVal s n = upperVal s' n ∧ lowerVal s n = lowerVal s' n)
    (x1 x2 : Int) (mode : DrawMode) (y : Nat) (p : Bool) :
    sdrawValue s x1 x2 mode x y p = sdrawValue s' x1 x2 mode x y p := by
  obtain ⟨hupper, hlower⟩ := hnear x hx (by omega) (by omega)
  have hshape : inShape s x1 x2 x y = inShape s' x1 x2 x y := by
    rw [inShape, inShape, hupper, hlower]
  have hborder : sdrawBorder s x1 x2 x y = sdrawBorder s' x1 x2 x y := by
    rw [Bool.eq_iff_iff, sdrawBorder_iff hx, sdrawBorder_iff hx, hupper, hlower]
    refine or_congr_right (or_congr_right (or_congr_right (or_congr_right (exists_congr fun n => ?_))))
    refine and_congr_right fun hn => and_congr_right fun hside => ?_
    obtain ⟨hu, hl⟩ := hnear n (List.mem_range.mp hn) (by omega) (by omega)
    rw [hu, hl]
  rw [sdrawValue, sdrawValue, hshape, hborder]

/-! ## The pixels after an `SDRAW` (42_shape_draw.md R114) -/

/-- An `SDRAW` is a drawing command with the reach and the border of the shape. -/
theorem drawnValue_sdraw (mode : DrawMode) (s : State) (x1 x2 : Int) :
    drawnValue mode s (.sdraw x1 x2 mode) = sdrawValue s x1 x2 mode := rfl

/-- The pixels after an `SDRAW`. -/
theorem exec_sdraw_pixels {s : State} (hm : MemWf s.fb) (x1 x2 : Int) (mode : DrawMode) :
    ∃ t, exec (.sdraw x1 x2 mode) s = .next t ∧ PixelsBecome (sdrawValue s x1 x2 mode) s t := by
  obtain ⟨t, hexec, hpixels, -⟩ := exec_spec_of_draws (.sdraw x1 x2 mode) hm
  exact ⟨t, hexec, hpixels⟩

theorem decode_wordOf_sdraw {x1 x2 : Int} {tm : Nat × DrawMode} (htm : tm ∈ tagTable)
    (hwf : Instr.WellFormed (.sdraw x1 x2 tm.2)) :
    decode (wordOf 5 tm.1 x1 x2 0 0) = .ok (.sdraw x1 x2 tm.2) := by
  rw [← decode_encode hwf, wordOf, controlHalf_of_tagTable 5 (by decide) tm htm]
  rfl

/-! ## Sequences of columns -/

theorem laneRun_flatMap_congr {a i : Nat} {F G : Nat → List ByteOp} {xs : List Nat}
    (h : ∀ x ∈ xs, ∀ p, laneRun a i (F x) p = laneRun a i (G x) p) (p : Bool) :
    laneRun a i (xs.flatMap F) p = laneRun a i (xs.flatMap G) p := by
  induction xs generalizing p with
  | nil => rfl
  | cons x xs ih =>
    rw [List.flatMap_cons, List.flatMap_cons, laneRun_append, laneRun_append, h x List.mem_cons_self]
    exact ih (fun x' hx' => h x' (List.mem_cons_of_mem x hx')) _

/-- Where only the operations of one index `x` reach a lane, the order of distinct indices does not matter
there. -/
theorem laneRun_flatMap_perm {a i x : Nat} {F : Nat → List ByteOp} {xs xs' : List Nat} (hperm : xs.Perm xs')
    (hnd : xs'.Nodup) (miss : ∀ x', x' ≠ x → ∀ p, laneRun a i (F x') p = p) (p : Bool) :
    laneRun a i (xs.flatMap F) p = laneRun a i (xs'.flatMap F) p := by
  rw [laneRun_flatMap_one (hperm.nodup_iff.mpr hnd) fun x' _ => miss x',
    laneRun_flatMap_one hnd fun x' _ => miss x']
  simp only [hperm.mem_iff]

theorem columnsOps_addr (s : State) (x1 x2 : Int) (mode : DrawMode) (xs : List Nat) :
    ∀ o ∈ xs.flatMap (columnOps s x1 x2 mode), o.addr < Config.fbBytes := by
  intro o ho
  obtain ⟨x, -, ho⟩ := List.mem_flatMap.mp ho
  exact columnOps_addr s x1 x2 mode x o ho

/-! ## The pixel-level column loop (42_shape_draw.md R114, 40_span_blitters.md R84) -/

theorem columnPixelOps_addr (s : State) (x1 x2 : Int) (mode : DrawMode) (x : Nat) :
    ∀ o ∈ columnPixelOps s x1 x2 mode x, o.addr < Config.fbBytes := by
  have hvline := vlinePixelOps_addr
  unfold columnPixelOps
  split
  · exact hvline _ _ _ _ _
  · split
    · exact hvline _ _ _ _ _
    · exact List.forall_mem_append.mpr
        ⟨List.forall_mem_append.mpr ⟨hvline _ _ _ _ _, hvline _ _ _ _ _⟩, hvline _ _ _ _ _⟩

theorem sdrawPixelOps_addr (s : State) (x1 x2 : Int) (mode : DrawMode) :
    ∀ o ∈ sdrawPixelOps s x1 x2 mode, o.addr < Config.fbBytes := by
  intro o ho
  obtain ⟨x, -, ho⟩ := List.mem_flatMap.mp ho
  exact columnPixelOps_addr s x1 x2 mode x o ho

/-- The two forms of a `VLINE` do the same to an on-screen pixel. -/
theorem vlineOps_lane_eq_pixelOps {x y : Nat} (hx : x < 72) (hy : y < 40) (x1 x2 y1 y2 : Int)
    (mode : DrawMode) (p : Bool) :
    laneRun (fbAddr x y) (fbBit y) (vlineOps x1 x2 y1 y2 mode) p =
      laneRun (fbAddr x y) (fbBit y) (vlinePixelOps x1 x2 y1 y2 mode) p := by
  rw [vlineOps_lane hx hy, vlinePixelOps_lane hx hy]

/-- The two forms of a column of an `SDRAW` perform the same `VLINE`s, so they do the same to an on-screen
pixel. -/
theorem columnOps_lane_eq_pixelOps {x y : Nat} (hx : x < 72) (hy : y < 40) (s : State) (x1 x2 : Int)
    (mode : DrawMode) (x' : Nat) (p : Bool) :
    laneRun (fbAddr x y) (fbBit y) (columnOps s x1 x2 mode x') p =
      laneRun (fbAddr x y) (fbBit y) (columnPixelOps s x1 x2 mode x') p := by
  have hvline := vlineOps_lane_eq_pixelOps hx hy
  unfold columnOps columnPixelOps upperGapOps lowerGapOps
  cases borderMode mode with
  | none => exact hvline _ _ _ _ _ p
  | some bm =>
    by_cases hedge : (x' : Int) = x1 ∨ (x' : Int) = x2
    · simp only [if_pos hedge]
      exact hvline _ _ _ _ _ p
    · simp only [if_neg hedge, laneRun_append, hvline]

/-! ## Empty columns (10_state.md R21) -/

/-- An empty column has no row of its own and no row between its ends, so `SDRAW` performs nothing there. -/
theorem columnOps_of_empty {s : State} {x : Nat} (hempty : lowerVal s x < upperVal s x) (x1 x2 : Int)
    (mode : DrawMode) : columnOps s x1 x2 mode x = [] := by
  have hspan : ∀ m, vlineOps x x (upperVal s x) (lowerVal s x) m = [] := fun m =>
    vlineOps_of_empty m (by omega)
  have hupper : ∀ bm, upperGapOps s x bm = [] := fun bm => vlineOps_of_empty bm (by omega)
  have hlower : ∀ bm, lowerGapOps s x bm = [] := fun bm => vlineOps_of_empty bm (by omega)
  unfold columnOps
  split
  · exact hspan _
  · simp only [hspan, hupper, hlower, List.append_nil, ite_self]

/-! ## Two drawing commands, and when drawing restores the state -/

section TwoCommands

variable {mode mode' : DrawMode} {i i' : Instr}

/-- The second command reads the registers the first one read, so the two are one sequence of byte
operations. -/
theorem execAll_pair_of_draws (hd : Draws mode i) (hd' : Draws mode' i') (s : State) :
    execAll [i, i'] s = .next (drawBytes s (commandOps s i ++ commandOps s i')) := by
  simp only [execAll, exec_of_draws hd, exec_drawBytes hd']

theorem commandOps_pair_addr (s : State) (i i' : Instr) :
    ∀ o ∈ commandOps s i ++ commandOps s i', o.addr < Config.fbBytes :=
  List.forall_mem_append.mpr ⟨commandOps_addr s i, commandOps_addr s i'⟩

theorem pixels_pair_of_draws (hd : Draws mode i) (hd' : Draws mode' i') {s : State} (hm : MemWf s.fb) :
    PixelsBecome (fun x y p => drawnValue mode' s i' x y (drawnValue mode s i x y p)) s
      (drawBytes s (commandOps s i ++ commandOps s i')) := by
  intro x y hx hy
  rw [drawBytes_fb, pixelOf_byteOpsRun hm (commandOps_pair_addr s i i'), laneRun_append,
    commandOps_lane hd s hx hy, commandOps_lane hd' s hx hy]

end TwoCommands

/-- Drawing leaves the state as it was exactly when it leaves every on-screen pixel as it was. -/
theorem drawBytes_eq_self_iff {s : State} {os : List ByteOp} {f : Nat → Nat → Bool → Bool} (hm : MemWf s.fb)
    (hos : ∀ o ∈ os, o.addr < Config.fbBytes) (hpixels : PixelsBecome f s (drawBytes s os)) :
    drawBytes s os = s ↔ ∀ x y : Nat, x < 72 → y < 40 → f x y (pixelOf s.fb x y) = pixelOf s.fb x y := by
  constructor
  · intro hsame x y hx hy
    rw [← hpixels x y hx hy, hsame]
  · intro hkept
    have hfb : byteOpsRun s.fb os = s.fb :=
      mem_ext_of_pixels (memWf_byteOpsRun hm hos) hm fun x y hx hy =>
        (hpixels x y hx hy).trans (hkept x y hx hy)
    rw [drawBytes, hfb]

/-- Filling a shape and then filling it with the background clears it. -/
theorem sdrawValue_bgFill_fill (s : State) (x1 x2 : Int) (x y : Nat) (p : Bool) :
    sdrawValue s x1 x2 .bgFill x y (sdrawValue s x1 x2 .fill x y p) =
      if inShape s x1 x2 x y = true then false else p := by
  unfold sdrawValue
  split <;> rfl

/-! ## The obligations -/

/-- Settles O21, from what a drawing command does; its word is the encoder's. -/
theorem sdrawDrawsTheReconstructedShape : Obligations.SdrawDrawsTheReconstructedShape := by
  intro x1 x2 mode s hm
  obtain ⟨t, hexec, hpixels, hbytes, hframe⟩ := exec_spec_of_draws (.sdraw x1 x2 mode) hm
  refine ⟨⟨t, hexec, fun x y hx hy => ?_, hbytes, hframe⟩, ?_⟩
  · rw [hpixels x y hx hy, drawnValue_sdraw, sdrawValue]
    simp only [inShape_iff hy, ← sdrawBorder_iff hx, Bool.decide_eq_true]
    cases mode <;> rfl
  · rintro hwf tm htm rfl
    exact decode_wordOf_sdraw htm hwf

/-- Settles O22: column by column, both forms do the same to every pixel. -/
theorem sdrawRefinesItsPixelLoop : Obligations.SdrawRefinesItsPixelLoop := by
  intro x1 x2 mode s hm
  refine congrArg Host.Outcome.next (drawBytes_congr ?_)
  exact byteOpsRun_eq_of_pixels hm (sdrawOps_addr _ _ _ _) (sdrawPixelOps_addr _ _ _ _) fun x y p hx hy =>
    laneRun_flatMap_congr (fun x' _ => columnOps_lane_eq_pixelOps hx hy s x1 x2 mode x') p

/-- Settles O23: only the operations of its own column reach a pixel. -/
theorem sdrawColumnOrderDoesNotMatter : Obligations.SdrawColumnOrderDoesNotMatter := by
  intro x1 x2 mode s xs hm hperm
  refine congrArg Host.Outcome.next (drawBytes_congr ?_)
  exact byteOpsRun_eq_of_pixels hm (sdrawOps_addr _ _ _ _) (columnsOps_addr _ _ _ _ xs) fun x y p hx hy =>
    (laneRun_flatMap_perm hperm (nodup_columns x1 x2)
      (fun _ hne q => columnOps_lane_other hx hy hne q) p).symm

/-- Settles O24: the value of the pixel is read from those columns. -/
theorem sdrawLooksOneColumnEitherSide : Obligations.SdrawLooksOneColumnEitherSide := by
  intro x1 x2 mode s s' x y hm hm' hx hy hnear hpixel
  obtain ⟨t, hexec, hvalue⟩ := exec_sdraw_pixels hm x1 x2 mode
  obtain ⟨t', hexec', hvalue'⟩ := exec_sdraw_pixels hm' x1 x2 mode
  refine ⟨t, t', hexec, hexec', ?_⟩
  rw [hvalue x y hx hy, hvalue' x y hx hy, hpixel]
  exact sdrawValue_congr hx hnear x1 x2 mode y _

/-- Settles O25: there is no byte operation to perform. -/
theorem emptyShapeDrawsNothing : Obligations.EmptyShapeDrawsNothing := by
  intro x1 x2 mode s hempty
  have hcolumn : ∀ x ∈ columns x1 x2, columnOps s x1 x2 mode x = [] := fun x hx => by
    have hclipped := mem_columns_iff_clipped.mp hx
    exact columnOps_of_empty (hempty x (columns_lt hx) (by omega) (by omega)) x1 x2 mode
  have hnone : sdrawOps s x1 x2 mode = [] := List.flatMap_eq_nil_iff.mpr hcolumn
  rw [exec_of_draws (.sdraw x1 x2 mode), commandOps, hnone, drawBytes_nil]

/-- Settles O26: the two commands are one sequence of byte operations that clears the shape; where the shape was
clear before, it changes no pixel. -/
theorem fillThenBgFillClearsTheSpans : Obligations.FillThenBgFillClearsTheSpans := by
  intro x1 x2 s hm
  have hfill : Draws .fill (.sdraw x1 x2 .fill) := .sdraw x1 x2 .fill
  have hbg : Draws .bgFill (.sdraw x1 x2 .bgFill) := .sdraw x1 x2 .bgFill
  have hcleared : PixelsBecome (fun x y p => if inShape s x1 x2 x y = true then false else p) s
      (drawBytes s (commandOps s (.sdraw x1 x2 .fill) ++ commandOps s (.sdraw x1 x2 .bgFill))) :=
    fun x y hx hy =>
      (pixels_pair_of_draws hfill hbg hm x y hx hy).trans (sdrawValue_bgFill_fill s x1 x2 x y _)
  refine ⟨_, execAll_pair_of_draws hfill hbg s, hcleared, ?_⟩
  rw [drawBytes_eq_self_iff hm (commandOps_pair_addr s _ _) hcleared]
  exact forall₄_congr fun x y _ _ => ite_eq_right_iff.trans (imp_congr_right fun _ => eq_comm)

/-- Settles O27: inside the shape one mode writes the border bit and the other its complement, outside it both
keep the pixel. -/
theorem outlineModesAreComplementary : Obligations.OutlineModesAreComplementary := by
  intro x1 x2 s hm
  obtain ⟨t, hexec, hvalue⟩ := exec_sdraw_pixels hm x1 x2 .outline
  obtain ⟨t', hexec', hvalue'⟩ := exec_sdraw_pixels hm x1 x2 .bgOutline
  refine ⟨t, t', hexec, hexec', fun x y hx hy => ?_⟩
  rw [hvalue x y hx hy, hvalue' x y hx hy, sdrawValue, sdrawValue]
  by_cases hin : inShape s x1 x2 x y = true
  · simp only [if_pos hin, spanValue]
  · simp only [if_neg hin, and_self]

end Sys2Proof.Machine
end

section
/-! SUPPORT. The pseudo-commands (43_pseudo_commands.md): what a list of commands makes of the picture, put
together from its parts; a rectangle's perimeter as four pieces that share no pixel; and the default `SRESET`. -/

namespace Sys2Proof.Machine

open Sys2Proof.Statements

/-! ## What a list of commands makes of the picture (30_encoding.md R73) -/

/-- The commands of the list, run from any canonical framebuffer, make `f` of every on-screen pixel and change
nothing but the framebuffer. -/
def DrawsPixels (is : List Instr) (f : Nat → Nat → Bool → Bool) : Prop :=
  ∀ s, MemWf s.fb → ∃ t, execAll is s = .next t ∧ PixelsBecome f s t ∧ OnlyFramebuffer s t ∧ MemWf t.fb

theorem execAll_singleton (i : Instr) (s : State) : execAll [i] s = exec i s := by
  obtain ⟨t, ht, -⟩ := exec_next i s
  simp only [execAll, ht]

theorem execAll_append {is : List Instr} {s t : State} (h : execAll is s = .next t) (is' : List Instr) :
    execAll (is ++ is') s = execAll is' t := by
  induction is generalizing s with
  | nil => cases h; rfl
  | cons i is ih =>
    obtain ⟨r, hr, -⟩ := exec_next i s
    simp only [execAll, hr] at h
    simp only [List.cons_append, execAll, hr, ih h]

theorem OnlyFramebuffer.trans {r s t : State} (h : OnlyFramebuffer r s) (h' : OnlyFramebuffer s t) :
    OnlyFramebuffer r t := by
  obtain ⟨⟨hu, hl⟩, ⟨hs, he⟩, hp, hr, hf⟩ := h
  obtain ⟨⟨hu', hl'⟩, ⟨hs', he'⟩, hp', hr', hf'⟩ := h'
  exact ⟨⟨hu'.trans hu, hl'.trans hl⟩, ⟨hs'.trans hs, he'.trans he⟩, hp'.trans hp, hr'.trans hr, hf'.trans hf⟩

section Lists

variable {is is' : List Instr} {f g : Nat → Nat → Bool → Bool}

theorem drawsPixels_nil : DrawsPixels [] fun _ _ p => p := fun s hm =>
  ⟨s, rfl, fun _ _ _ _ => rfl, ⟨⟨rfl, rfl⟩, ⟨rfl, rfl⟩, rfl, rfl, rfl⟩, hm⟩

/-- The same for one framebuffer, as the statements say it. -/
theorem DrawsPixels.execAll_spec (h : DrawsPixels is f) {s : State} (hm : MemWf s.fb) :
    ∃ t, execAll is s = .next t ∧ PixelsBecome f s t ∧ OnlyFramebuffer s t := by
  obtain ⟨t, hexec, hpixels, hframe, -⟩ := h s hm
  exact ⟨t, hexec, hpixels, hframe⟩

theorem DrawsPixels.append (h : DrawsPixels is f) (h' : DrawsPixels is' g) :
    DrawsPixels (is ++ is') fun x y p => g x y (f x y p) := by
  intro s hm
  obtain ⟨t, hexec, hpixels, hframe, hmt⟩ := h s hm
  obtain ⟨u, hexec', hpixels', hframe', hmu⟩ := h' t hmt
  refine ⟨u, (execAll_append hexec is').trans hexec', fun x y hx hy => ?_, hframe.trans hframe', hmu⟩
  rw [hpixels' x y hx hy, hpixels x y hx hy]

/-- Only what `f` makes of the pixels of the screen counts. -/
theorem DrawsPixels.congr (h : DrawsPixels is f) (hfg : ∀ x y p, x < 72 → y < 40 → f x y p = g x y p) :
    DrawsPixels is g := by
  intro s hm
  obtain ⟨t, hexec, hpixels, hrest⟩ := h s hm
  exact ⟨t, hexec, fun x y hx hy => (hpixels x y hx hy).trans (hfg x y _ hx hy), hrest⟩

end Lists

theorem drawsPixels_of_draws {mode : DrawMode} {i : Instr} (hd : Draws mode i) {f : Nat → Nat → Bool → Bool}
    (hf : ∀ s x y p, x < 72 → y < 40 → drawnValue mode s i x y p = f x y p) : DrawsPixels [i] f := by
  intro s hm
  obtain ⟨t, hexec, hpixels, -, hframe⟩ := exec_spec_of_draws hd hm
  exact ⟨t, (execAll_singleton i s).trans hexec,
    fun x y hx hy => (hpixels x y hx hy).trans (hf s x y _ hx hy), hframe, memWf_of_exec hm hexec⟩

/-! ## Regions of the plane -/

/-- The pixels of the rectangle with the corners `(x1, y1)` and `(x2, y2)`. -/
abbrev InBox (x1 y1 x2 y2 : Int) (x y : Nat) : Prop :=
  x1 ≤ (x : Int) ∧ (x : Int) ≤ x2 ∧ y1 ≤ (y : Int) ∧ (y : Int) ≤ y2

/-- The columns and rows its sides lie in. -/
abbrev OnSideLines (x1 y1 x2 y2 : Int) (x y : Nat) : Prop :=
  (x : Int) = x1 ∨ (x : Int) = x2 ∨ (y : Int) = y1 ∨ (y : Int) = y2

/-- A region drawn once in a mode that knows no border: its pixels get the value of the mode. -/
def paint (mode : DrawMode) (R : Nat → Nat → Prop) [∀ x y, Decidable (R x y)] (x y : Nat) (p : Bool) : Bool :=
  if R x y then spanValue mode false p else p

section Painting

variable {mode : DrawMode} {is is' : List Instr} {R R' : Nat → Nat → Prop} [∀ x y, Decidable (R x y)]
  [∀ x y, Decidable (R' x y)]

theorem paint_of_mem {x y : Nat} (h : R x y) (p : Bool) : paint mode R x y p = spanValue mode false p := if_pos h

theorem paint_of_not_mem {x y : Nat} (h : ¬R x y) (p : Bool) : paint mode R x y p = p := if_neg h

theorem drawsPixels_paint_congr (h : DrawsPixels is (paint mode R))
    (hR : ∀ x y, x < 72 → y < 40 → (R x y ↔ R' x y)) : DrawsPixels is (paint mode R') :=
  h.congr fun x y _ hx hy => if_congr (hR x y hx hy) rfl rfl

/-- Commands left out when `c` does not hold. -/
theorem drawsPixels_paint_ite (h : DrawsPixels is (paint mode R)) (c : Prop) [Decidable c] :
    DrawsPixels (if c then is else []) (paint mode fun x y => c ∧ R x y) := by
  by_cases hc : c
  · rw [if_pos hc]
    exact drawsPixels_paint_congr h fun x y _ _ => (and_iff_right hc).symm
  · rw [if_neg hc]
    exact drawsPixels_nil.congr fun x y p _ _ => (paint_of_not_mem (fun h => hc h.1) p).symm

/-- Two regions that share no pixel, one after the other, are painted once each. -/
theorem drawsPixels_paint_append (h : DrawsPixels is (paint mode R)) (h' : DrawsPixels is' (paint mode R'))
    (hdisjoint : ∀ x y, R x y → ¬R' x y) : DrawsPixels (is ++ is') (paint mode fun x y => R x y ∨ R' x y) := by
  refine (h.append h').congr fun x y p _ _ => ?_
  by_cases hR : R x y
  · rw [paint_of_not_mem (hdisjoint x y hR), paint_of_mem hR, paint_of_mem (Or.inl hR)]
  · rw [paint_of_not_mem hR]
    exact if_congr (or_iff_right hR).symm rfl rfl

end Painting

/-! ## The two span blitters, their clipping left to the screen (40_span_blitters.md R84, R86) -/

/-- On the screen, the clipped rectangle of a `VLINE` is the rectangle of its operands. -/
theorem drawsPixels_vline (x1 x2 y1 y2 : Int) (mode : DrawMode) :
    DrawsPixels [.vline x1 x2 y1 y2 mode] fun x y p =>
      if InBox x1 y1 x2 y2 x y then spanValue mode (decide ((y : Int) = y1 ∨ (y : Int) = y2)) p else p := by
  refine drawsPixels_of_draws (.vline x1 x2 y1 y2 mode) fun s x y p hx hy => if_congr ?_ rfl rfl
  simp only [commandReaches, inRect, inClipped, Bool.and_eq_true, decide_eq_true_eq]
  omega

section PlainModes

variable {mode : DrawMode} (hplain : borderMode mode = none)
include hplain

theorem drawsPixels_vline_plain (x1 x2 y1 y2 : Int) :
    DrawsPixels [.vline x1 x2 y1 y2 mode] (paint mode (InBox x1 y1 x2 y2)) :=
  (drawsPixels_vline x1 x2 y1 y2 mode).congr fun _ _ p _ _ => by
    rw [paint, spanValue_plain hplain _ false p]

theorem drawsPixels_hline_plain (y0 x1 x2 : Int) :
    DrawsPixels [.hline y0 x1 x2 mode] (paint mode (InBox x1 y0 x2 y0)) := by
  refine drawsPixels_of_draws (.hline y0 x1 x2 mode) fun s x y p hx hy => ?_
  rw [drawnValue, paint, spanValue_plain hplain _ false p]
  refine if_congr ?_ rfl rfl
  simp only [commandReaches, inClipped, Bool.and_eq_true, decide_eq_true_eq]
  omega

end PlainModes

/-! ## One pixel, and the rectangle forms (43_pseudo_commands.md R131 to R133) -/

/-- The one pixel is on the border of its one-pixel span. -/
theorem drawsPixels_pixel (x0 y0 : Int) (mode : DrawMode) :
    DrawsPixels (expandPixel x0 y0 mode) fun x y p =>
      if (x : Int) = x0 ∧ (y : Int) = y0 then spanValue mode true p else p := by
  refine (drawsPixels_vline x0 x0 y0 y0 mode).congr fun x y p _ _ => ?_
  have hbox : InBox x0 y0 x0 y0 x y ↔ (x : Int) = x0 ∧ (y : Int) = y0 := by omega
  refine if_ctx_congr hbox (fun hxy => ?_) fun _ => rfl
  rw [decide_eq_true (Or.inl hxy.2)]

/-- The left side, the right side if it is another one, and the top and bottom rows between them if there is
room, the bottom row if it is another one: the perimeter, each pixel in one piece only. -/
theorem drawsPixels_rectOutline {mode : DrawMode} (hplain : borderMode mode = none) {x1 y1 x2 y2 : Int}
    (hx : x1 ≤ x2) (hy : y1 ≤ y2) :
    DrawsPixels (expandRectOutline x1 y1 x2 y2 mode)
      (paint mode fun x y => InBox x1 y1 x2 y2 x y ∧ OnSideLines x1 y1 x2 y2 x y) := by
  have left := drawsPixels_vline_plain hplain x1 x1 y1 y2
  have right := drawsPixels_paint_ite (drawsPixels_vline_plain hplain x2 x2 y1 y2) (x2 ≠ x1)
  have top := drawsPixels_hline_plain hplain y1 (x1 + 1) (x2 - 1)
  have bottom := drawsPixels_paint_ite (drawsPixels_hline_plain hplain y2 (x1 + 1) (x2 - 1)) (y2 ≠ y1)
  have sides := drawsPixels_paint_append left right fun x y => by omega
  have rows := drawsPixels_paint_append top bottom fun x y => by omega
  have rowsIfRoom := drawsPixels_paint_ite rows (2 < x2 - x1 + 1)
  have whole := drawsPixels_paint_append sides rowsIfRoom fun x y => by omega
  exact drawsPixels_paint_congr whole fun x y _ _ => by omega

/-- The interior in the body's mode and then the perimeter in the border's: every pixel of the rectangle is drawn
once, and gets the value of the outline mode. -/
theorem drawsPixels_interior_outline {mode inner edge : DrawMode} (hinner : borderMode inner = none)
    (hedge : borderMode edge = none) (hbody : ∀ p, spanValue inner false p = spanValue mode false p)
    (hborder : borderMode mode = some edge) {x1 y1 x2 y2 : Int} (hx : x1 ≤ x2) (hy : y1 ≤ y2) :
    DrawsPixels (.vline (x1 + 1) (x2 - 1) (y1 + 1) (y2 - 1) inner :: expandRectOutline x1 y1 x2 y2 edge)
      fun x y p =>
        if InBox x1 y1 x2 y2 x y then spanValue mode (decide (OnSideLines x1 y1 x2 y2 x y)) p else p := by
  have interior := drawsPixels_vline_plain hinner (x1 + 1) (x2 - 1) (y1 + 1) (y2 - 1)
  have perimeter := drawsPixels_rectOutline hedge hx hy
  refine (interior.append perimeter).congr fun x y p _ _ => ?_
  by_cases hbox : InBox x1 y1 x2 y2 x y
  · rw [if_pos hbox]
    by_cases hside : OnSideLines x1 y1 x2 y2 x y
    · rw [decide_eq_true hside, paint_of_mem ⟨hbox, hside⟩]
      exact spanValue_border hborder false _ p
    · rw [decide_eq_false hside, paint_of_not_mem fun h => hside h.2, paint_of_mem (by omega), hbody]
  · rw [if_neg hbox, paint_of_not_mem fun h => hbox h.1, paint_of_not_mem (by omega)]

/-- What `RECT` makes of a pixel, by the table of the draw modes: inside the rectangle the value of a span whose
border is the perimeter. -/
theorem drawsPixels_rect {x1 y1 x2 y2 : Int} (hx : x1 ≤ x2) (hy : y1 ≤ y2) (mode : DrawMode) :
    DrawsPixels (expandRect x1 y1 x2 y2 mode) fun x y p =>
      if InBox x1 y1 x2 y2 x y then spanValue mode (decide (OnSideLines x1 y1 x2 y2 x y)) p else p := by
  cases mode with
  | fill => exact drawsPixels_vline x1 x2 y1 y2 .fill
  | bgFill => exact drawsPixels_vline x1 x2 y1 y2 .bgFill
  | xor => exact drawsPixels_vline x1 x2 y1 y2 .xor
  | outline =>
    exact drawsPixels_interior_outline (mode := .outline) (inner := .fill) (edge := .bgFill)
      rfl rfl (fun _ => rfl) rfl hx hy
  | bgOutline =>
    exact drawsPixels_interior_outline (mode := .bgOutline) (inner := .bgFill) (edge := .fill)
      rfl rfl (fun _ => rfl) rfl hx hy

/-! ## The default `SRESET` (43_pseudo_commands.md R134) -/

theorem execAll_sresetAll (s : State) :
    execAll expandSresetAll s = .next (writePairs s 40 (-1) (columns 0 71)) := rfl

/-- All columns of the screen are written with the empty pair. -/
theorem sresetAll_values (s : State) {x : Nat} (hx : x < 72) :
    upperVal (writePairs s 40 (-1) (columns 0 71)) x = 40 ∧
      lowerVal (writePairs s 40 (-1) (columns 0 71)) x = -1 := by
  have hall : x ∈ columns 0 71 ↔ True := mem_columns_iff_clipped.trans (iff_true_intro (by omega))
  have hpair := pair_writePairs s (u := 40) (l := -1) (by decide) (by decide) hx hall
  rwa [if_pos trivial] at hpair

/-! ## The obligations -/

/-- Settles O50: the value of a border pixel, read for each mode. -/
theorem pixelDrawsOnePixel : Obligations.PixelDrawsOnePixel := by
  intro x0 y0 mode s hm
  refine ((drawsPixels_pixel x0 y0 mode).congr fun x y p _ _ => ?_).execAll_spec hm
  cases mode <;> rfl

/-- Settles O51: the perimeter is painted once, in `xor` mode. -/
theorem rectOutlineXorTogglesThePerimeterOnce : Obligations.RectOutlineXorTogglesThePerimeterOnce := by
  intro x1 y1 x2 y2 s hx hy hm
  have hperimeter := drawsPixels_rectOutline (mode := .xor) rfl hx hy
  exact (hperimeter.congr fun x y p _ _ => if_congr (by omega) rfl rfl).execAll_spec hm

/-- Settles O52: the table of the draw modes, read for each mode. -/
theorem rectDrawsInteriorAndPerimeter : Obligations.RectDrawsInteriorAndPerimeter := by
  intro x1 y1 x2 y2 mode s hx hy hm
  refine ((drawsPixels_rect hx hy mode).congr fun x y p _ _ => ?_).execAll_spec hm
  cases mode <;> rfl

/-- Settles O53: every column holds the empty pair (40, −1), and an empty shape draws nothing. -/
theorem defaultSresetEmptiesEveryColumn : Obligations.DefaultSresetEmptiesEveryColumn := by
  intro s x1 x2 mode
  refine ⟨_, execAll_sresetAll s, fun x => sresetAll_values s, onlyBoundary_writePairs s 40 (-1) _, ?_⟩
  refine emptyShapeDrawsNothing x1 x2 mode _ fun x hx _ _ => ?_
  obtain ⟨hupper, hlower⟩ := sresetAll_values s hx
  rw [hupper, hlower]
  decide

end Sys2Proof.Machine
end

section
/-! SUPPORT. The command fault (60_exceptions.md): its entry, the faulted state in which every word is
discarded, and its acknowledge, each as the step of the word or write that causes it. -/

namespace Sys2Proof.Machine

/-! ## The fields of `STATUS` (10_state.md R24) -/

/-- The bits outside `ERR` and `ERRCODE` stay as they are. -/
theorem statusWithErr_lane_kept (st : Half) (err : Bool) (code : BitVec 4) {k : Nat} (hk : k < 16)
    (hne : k ≠ 1) (hout : k < 4 ∨ 8 ≤ k) : (statusWithErr st err code).getLsbD k = st.getLsbD k := by
  rw [statusWithErr_lane st err code hk, if_neg hne, if_neg (by omega)]

/-- Writing the fields a `STATUS` has already changes nothing. -/
theorem statusWithErr_self (st : Half) : statusWithErr st (statusErr st) (statusErrCode st) = st := by
  apply BitVec.eq_of_getLsbD_eq
  intro k hk
  rw [statusWithErr_lane st _ _ hk]
  split
  · next h1 => rw [h1, statusErr]
  · split
    · next hcode =>
      have hk4 : k - 4 < 4 := by omega
      have hadd : 4 + (k - 4) = k := by omega
      simp [statusErrCode, hk4, hadd]
    · rfl

/-! ## The command port (60_exceptions.md R163, R164) -/

/-- An illegal word on the command port of a block that is not faulted is recorded. -/
theorem step_of_pending_illegal {s : State} {cw : CmdWord} {rest : List HostAction} {e : CmdError}
    (hp : s.pending = .command cw :: rest) (hs : isFaulted s = false) (hd : decode cw = .error e) :
    step s = .next (takeCommandFault e cw { s with pending := rest }) := by
  have hs' : isFaulted { s with pending := rest } = false := hs
  simp [step_of_pending hp, hostAct, acceptCommand, hs', hd]

/-- While the block is faulted the command port does not look at the word. -/
theorem step_of_pending_discarded {s : State} {cw : CmdWord} {rest : List HostAction}
    (hp : s.pending = .command cw :: rest) (hs : isFaulted s = true) :
    step s = .next { s with pending := rest } := (step_of_pending hp).trans (if_pos hs)

@[simp] theorem isFaulted_takeCommandFault (e : CmdError) (cw : CmdWord) (s : State) :
    isFaulted (takeCommandFault e cw s) = true := by
  simp [isFaulted]

/-- A faulted block runs through a list of words with nothing but the list moving (70_reset_and_hazards.md
R192). -/
theorem core_run_discarded {words : List CmdWord} {s : State} (hs : isFaulted s = true)
    (hp : s.pending = words.map HostAction.command) :
    core.run words.length s = .next { s with pending := [] } := by
  induction words generalizing s with
  | nil =>
    have hempty : s.pending = [] := hp
    rw [← hempty]
    rfl
  | cons cw words ih =>
    have hrest : core.run words.length { s with pending := words.map HostAction.command } =
        .next { s with pending := [] } := ih hs rfl
    exact (core_run_succ (step_of_pending_discarded hp hs) words.length).trans hrest

/-! ## The acknowledge (60_exceptions.md R165) -/

theorem step_of_pending_errclr {s : State} {v : Half} {rest : List HostAction}
    (hp : s.pending = .regWrite 0x001 v :: rest) (hv : v.getLsbD 0 = true) :
    step s = .next (leaveCommandFault { s with pending := rest }) :=
  (step_of_pending hp).trans (congrArg _ (regWrite_ctrl _ hv))

/-- There is nothing to acknowledge where the block is not faulted and its record is empty, as the invariant
has it. -/
theorem leaveCommandFault_of_not_faulted {s : State} (hinv : StateInv s) (hs : isFaulted s = false) :
    leaveCommandFault s = s := by
  obtain ⟨-, -, hrecord⟩ := stateInv_iff.mp hinv
  obtain ⟨hcode, herrCmd⟩ := (faultRecordOk_iff_of_not_faulted hs).mp hrecord
  have hstatus : statusWithErr s.status false 0 = s.status := by
    rw [← hcode, ← hs]
    exact statusWithErr_self s.status
  rw [leaveCommandFault, hstatus, ← herrCmd]

/-! ## The obligations -/

/-- Settles O30: the step is fault entry, which writes `ERR`, `ERRCODE` and the record only. -/
theorem illegalWordTakesTheCommandFault : Obligations.IllegalWordTakesTheCommandFault := by
  intro s cw rest e hp hs hd
  refine ⟨_, step_of_pending_illegal hp hs hd, statusErr_statusWithErr _ _ _, ?code, rfl, ?kept,
    rfl, ⟨rfl, rfl⟩, rfl, rfl, rfl⟩
  case code =>
    rw [takeCommandFault_status, statusErrCode_statusWithErr]
    cases e <;> rfl
  case kept => exact fun _ => statusWithErr_lane_kept s.status true e.code

/-- Settles O32: the step is fault return, which leaves a record that is empty already as it is. -/
theorem errclrLeavesTheFaultedState : Obligations.ErrclrLeavesTheFaultedState := by
  intro s v rest hp hv
  refine ⟨_, step_of_pending_errclr hp hv, isFaulted_leaveCommandFault _, statusErrCode_statusWithErr _ _ _,
    ?record, ?kept, rfl, ⟨rfl, rfl⟩, rfl, rfl, rfl, ?idle⟩
  case record =>
    intro k hk
    simp only [leaveCommandFault_errCmd, Vector.getElem_replicate]
  case kept => exact fun _ => statusWithErr_lane_kept s.status false 0
  case idle =>
    exact fun hinv hs => leaveCommandFault_of_not_faulted (s := { s with pending := rest }) hinv hs

/-- Settles O48: the first step is fault entry, and the rest of the run is discarded. -/
theorem illegalWordEndsThePicture : Obligations.IllegalWordEndsThePicture := by
  intro s cw e words hs hd hp
  have hentry := step_of_pending_illegal hp hs hd
  have hrest := core_run_discarded (isFaulted_takeCommandFault e cw _) (takeCommandFault_pending e cw
    { s with pending := words.map HostAction.command })
  exact ⟨_, (core_run_succ hentry words.length).trans hrest, ⟨rfl, isFaulted_takeCommandFault e cw s⟩,
    statusErrCode_statusWithErr _ _ _, errCmdWord_of_halves rfl, rfl, rfl, rfl⟩

/-- Settles O31: the word is discarded before it is decoded. -/
theorem faultedBlockDiscardsEveryWord : Obligations.FaultedBlockDiscardsEveryWord :=
  fun _ _ _ hp hs => step_of_pending_discarded hp hs

end Sys2Proof.Machine
end

section
/-! SUPPORT. Reset and the bounds of a command (70_reset_and_hazards.md): the block after a reset, the bytes a
reset leaves when it abandons a command, and how many byte operations a command makes at most. -/

namespace Sys2Proof.Machine

open Sys2Proof.Statements

/-! ## The block after a reset (70_reset_and_hazards.md R180) -/

/-- A block whose registers are those of the reset state holds the values of 10_state.md R31. -/
theorem resetValues {t : State} (hb : SameBoundary State.reset t) (hc : SameControl State.reset t) :
    (∀ x : Nat, x < 72 → upperVal t x = 40 ∧ lowerVal t x = -1) ∧ t.status = 0 ∧
      ∀ k : Nat, (hk : k < 5) → t.errCmd[k] = 0 := by
  obtain ⟨hupper, hlower⟩ := hb
  obtain ⟨hstatus, herrCmd⟩ := hc
  refine ⟨fun x hx => ⟨?_, ?_⟩, hstatus, fun k hk => ?_⟩
  · rw [upperVal, upperRaw, hupper]
    exact upperVal_reset hx
  · rw [lowerVal, lowerRaw, hlower]
    exact lowerVal_reset hx
  · simp only [herrCmd, reset_errCmd, Vector.getElem_replicate]

/-! ## Bytes from pixels (20_memory.md R41) -/

/-- A byte that holds no reached pixel keeps its value where every other pixel does: its lanes are pixels. -/
theorem bytesOutside_of_pixels {reach : Nat → Nat → Bool} {s t : State} (hs : MemWf s.fb) (ht : MemWf t.fb)
    (h : ∀ x y, x < 72 → y < 40 → reach x y = false → pixelOf t.fb x y = pixelOf s.fb x y) :
    BytesOutside reach s t := by
  intro a hout
  by_cases ha : a < Config.fbBytes
  · refine BitVec.eq_of_getLsbD_eq fun i hi => ?_
    obtain ⟨x, y, hx, hy, rfl, rfl⟩ := fbPlace_surj ha hi
    exact h x y hx hy (Bool.eq_false_iff.mpr fun hr => hout x y hx hy hr rfl)
  · rw [memRead_outside hs (Nat.not_lt.mp ha), memRead_outside ht (Nat.not_lt.mp ha)]

/-! ## An abandoned command (70_reset_and_hazards.md R181) -/

theorem wordOps_of_decode {s : State} {cw : CmdWord} {i : Instr} (hs : isFaulted s = false)
    (hd : decode cw = .ok i) : wordOps s cw = commandOps s i := by
  simp [wordOps, hs, hd]

/-- A word that does not execute makes no byte operation. -/
theorem wordOps_of_not_executed {s : State} {cw : CmdWord}
    (h : isFaulted s = true ∨ ∃ e, decode cw = .error e) : wordOps s cw = [] := by
  rcases h with hs | ⟨e, hd⟩
  · exact if_pos hs
  · simp [wordOps, hd]

/-- Whichever lanes took effect, an abandoned command does nothing to the place of a pixel outside its
reach. -/
theorem abandonedOps_lane_outside {s : State} {i : Instr} {x y : Nat} (hx : x < 72)
    (h : commandReaches s i x y = false) (k : Nat) (p : Bool) :
    laneRun (fbAddr x y) (fbBit y) (abandonedOps k (commandOps s i)) p = p := by
  refine laneRun_untouched (fun o ho ⟨haddr, hlane⟩ => ?_) p
  obtain ⟨o', ho', haddr', hlane'⟩ := abandonedOps_lane ho hlane
  have hreach := commandOps_reach hx ho' ⟨haddr'.trans haddr, hlane'⟩
  exact Bool.false_ne_true (h.symm.trans hreach)

theorem pixelOf_abandonCommand_outside {s : State} {i : Instr} {x y : Nat} (hm : MemWf s.fb) (hx : x < 72)
    (h : commandReaches s i x y = false) :
    pixelOf (abandonCommand s (commandOps s i)).fb x y = pixelOf s.fb x y := by
  rw [abandonCommand_fb, pixelOf_byteOpsRun hm (abandonedOps_addr (commandOps_addr s i)),
    abandonedOps_lane_outside hx h]

/-! ## How many byte operations (70_reset_and_hazards.md R191) -/

/-- The columns a span blitter runs over, by their name. -/
theorem upTo_clipped (x1 x2 : Int) : upTo (clipLoX x1) (clipHiX x2) = columns x1 x2 := rfl

theorem length_columns_le (x1 x2 : Int) : (columns x1 x2).length ≤ 72 := by
  simp only [columns, upTo, List.length_range', clipLoX, clipHiX, Config.screenW]
  omega

/-- The on-screen rows lie in five pages. -/
theorem length_pages_le (ya : Nat) {yb : Nat} (hyb : yb < 40) : (pages ya yb).length ≤ 5 := by
  simp only [pages, List.length_range']
  omega

theorem length_vlineBody (op : BitOp) (xs : List Nat) (ya yb : Nat) :
    (vlineBody op xs ya yb).length = xs.length * (pages ya yb).length := by
  simp [vlineBody, List.length_flatMap]

theorem length_rowToggle (xs : List Nat) (y : Nat) : (rowToggle xs y).length = xs.length := List.length_map _

/-- The toggles of a boundary are made in the outline modes only. -/
theorem length_ifOutline_le (mode : DrawMode) (c : Prop) [Decidable c] (os : List ByteOp) :
    (if isOutline mode = true ∧ c then os else []).length ≤ (isOutline mode).toNat * os.length := by
  split
  · next h => simp [h.1]
  · simp

/-- In every column a `VLINE` makes one byte operation a page, and in an outline mode two toggles. -/
theorem length_vlineOps_le (x1 x2 y1 y2 : Int) (mode : DrawMode) :
    (vlineOps x1 x2 y1 y2 mode).length ≤ (columns x1 x2).length * (5 + 2 * (isOutline mode).toNat) := by
  simp only [vlineOps]
  split
  · simp
  · have hyb : (clipHiY y2).toNat < 40 := by simp only [clipHiY, Config.screenH]; omega
    have hbody := Nat.mul_le_mul_left (columns x1 x2).length (length_pages_le (clipLoY y1).toNat hyb)
    have htop := length_ifOutline_le mode (y1 = clipLoY y1) (rowToggle (columns x1 x2) (clipLoY y1).toNat)
    have hbottom := length_ifOutline_le mode (y2 = clipHiY y2 ∧ y1 ≠ y2)
      (rowToggle (columns x1 x2) (clipHiY y2).toNat)
    rw [length_rowToggle] at htop hbottom
    simp only [List.length_append, length_vlineBody, upTo_clipped]
    linarith

/-- An `HLINE` makes one byte operation a column, and in an outline mode two toggles. -/
theorem length_hlineOps_le (y x1 x2 : Int) (mode : DrawMode) :
    (hlineOps y x1 x2 mode).length ≤ (columns x1 x2).length + 2 * (isOutline mode).toNat := by
  simp only [hlineOps]
  split
  · simp
  · have hleft := length_ifOutline_le mode (x1 = clipLoX x1) [pixOp .tgl (clipLoX x1).toNat y.toNat]
    have hright := length_ifOutline_le mode (x2 = clipHiX x2 ∧ x1 ≠ x2) [pixOp .tgl (clipHiX x2).toNat y.toNat]
    simp only [List.length_singleton] at hleft hright
    simp only [List.length_append, List.length_map, upTo_clipped]
    omega

theorem isOutline_of_borderMode {mode bm : DrawMode} (h : borderMode mode = some bm) :
    isOutline bm = false := by
  cases mode <;> cases h <;> rfl

theorem length_columns_self_le (x : Int) : (columns x x).length ≤ 1 := by
  simp only [columns, upTo, List.length_range', clipLoX, clipHiX, Config.screenW]
  omega

/-- A `VLINE` of one column makes at most seven byte operations. -/
theorem length_vlineOps_column_le (x y1 y2 : Int) (mode : DrawMode) : (vlineOps x x y1 y2 mode).length ≤ 7 := by
  have hlen := length_vlineOps_le x x y1 y2 mode
  have hmode := Bool.toNat_le (isOutline mode)
  have hcol := Nat.mul_le_mul_right (5 + 2 * (isOutline mode).toNat) (length_columns_self_le x)
  omega

/-- In a border mode it makes no toggle, so at most five. -/
theorem length_vlineOps_border_le {mode bm : DrawMode} (h : borderMode mode = some bm) (x y1 y2 : Int) :
    (vlineOps x x y1 y2 bm).length ≤ 5 := by
  have hlen := length_vlineOps_le x x y1 y2 bm
  simp only [isOutline_of_borderMode h, Bool.toNat_false] at hlen
  have hcol := length_columns_self_le x
  omega

/-- In a drawn column an `SDRAW` makes at most a span in the mode and the two gaps in the border mode. -/
theorem length_columnOps_le (s : State) (x1 x2 : Int) (mode : DrawMode) (x : Nat) :
    (columnOps s x1 x2 mode x).length ≤ 17 := by
  unfold columnOps
  split
  · exact (length_vlineOps_column_le _ _ _ _).trans (by decide)
  · next bm hbm =>
    split
    · exact (length_vlineOps_column_le _ _ _ _).trans (by decide)
    · rw [List.length_append, List.length_append]
      exact Nat.add_le_add (Nat.add_le_add (length_vlineOps_column_le _ _ _ _)
        (length_vlineOps_border_le hbm _ _ _)) (length_vlineOps_border_le hbm _ _ _)

theorem length_sdrawOps_le (s : State) (x1 x2 : Int) (mode : DrawMode) :
    (sdrawOps s x1 x2 mode).length ≤ (columns x1 x2).length * 17 := by
  have hsum := List.sum_le_card_nsmul ((columns x1 x2).map fun x => (columnOps s x1 x2 mode x).length) 17
    (by simpa using fun x _ => length_columnOps_le s x1 x2 mode x)
  simpa [sdrawOps, List.length_flatMap] using hsum

/-! ## The obligations -/

/-- Settles O18: each command makes a bounded number of byte operations in a column, and there are at most 72
columns. -/
theorem byteOperationCounts : Obligations.ByteOperationCounts := by
  refine ⟨fun x1 x2 y1 y2 mode => ?vline, fun y x1 x2 mode => ?hline, fun s x1 x2 mode => ?sdraw⟩
  case vline =>
    have hcolumn : 5 + 2 * (isOutline mode).toNat ≤ 7 := by
      have hmode := Bool.toNat_le (isOutline mode)
      omega
    exact (length_vlineOps_le x1 x2 y1 y2 mode).trans (Nat.mul_le_mul (length_columns_le x1 x2) hcolumn)
  case hline =>
    have hlen := length_hlineOps_le y x1 x2 mode
    have hcolumns := length_columns_le x1 x2
    have hmode := Bool.toNat_le (isOutline mode)
    omega
  case sdraw =>
    exact (length_sdrawOps_le s x1 x2 mode).trans (Nat.mul_le_mul_right 17 (length_columns_le x1 x2))

/-- Settles O39: every lane that may have taken effect is one of the command's own, so it lies in its
reach. -/
theorem abandonedCommandStaysInItsReach : Obligations.AbandonedCommandStaysInItsReach := by
  intro s cw rest hm hp
  have hwf := memWf_abandonCommand (s := { s with pending := rest }) hm cw
  obtain ⟨hcolumns, hstatus, herrCmd⟩ := resetValues
    (t := abandonCommand { s with pending := rest } (wordOps { s with pending := rest } cw))
    ⟨rfl, rfl⟩ ⟨rfl, rfl⟩
  refine ⟨_, step_of_pending hp, hcolumns, hstatus, herrCmd, hwf, rfl, rfl, ?executed, ?notExecuted⟩
  case executed =>
    intro i hs hd
    have hops : wordOps { s with pending := rest } cw = commandOps { s with pending := rest } i :=
      wordOps_of_decode hs hd
    rw [hops] at hwf ⊢
    have hpixels : ∀ x y, x < 72 → y < 40 → commandReaches s i x y = false →
        pixelOf (abandonCommand { s with pending := rest } (commandOps { s with pending := rest } i)).fb x y =
          pixelOf s.fb x y := fun x y hx _ hout =>
      pixelOf_abandonCommand_outside (s := { s with pending := rest }) hm hx hout
    exact ⟨hpixels, bytesOutside_of_pixels hm hwf hpixels⟩
  case notExecuted =>
    intro hnot
    have hops : wordOps { s with pending := rest } cw = [] := wordOps_of_not_executed hnot
    rw [hops]
    rfl

/-- Settles O37: the step is the reset of the block, whose registers are those of the reset state. -/
theorem resetInputResetsTheBlock : Obligations.ResetInputResetsTheBlock := by
  intro s rest hp
  obtain ⟨hcolumns, hstatus, herrCmd⟩ := resetValues (t := blockReset { s with pending := rest })
    ⟨rfl, rfl⟩ ⟨rfl, rfl⟩
  exact ⟨_, step_of_pending hp, hcolumns, hstatus, herrCmd, rfl, rfl, rfl, rfl⟩

/-- Settles O46: there is no next action to take. -/
theorem idleBlockStays : Obligations.IdleBlockStays := by
  intro s hp
  simp only [step, hostStep, nextAction, hp]

end Sys2Proof.Machine
end
